-- ==== Sys2Proof/Word.lean ====
section
/-! DEFINITION. The word types of the CHIP-8 core: bytes, 16-bit words, 12-bit address immediates and register numbers
(spec 00_scope.md section 5, 30_encoding.md R51). Every value of the machine is unsigned. -/

namespace Sys2Proof

/-- Eight bits: a general register, a timer, a memory byte, the immediate `kk`. -/
abbrev Byte := BitVec 8

/-- Sixteen bits: `pc`, `I`, a stack entry, an instruction word. -/
abbrev Word := BitVec 16

/-- The 12-bit address immediate `nnn` (R51, R53). -/
abbrev Addr12 := BitVec 12

/-- The number of a general register, 0 to 15 (R10: every number is valid). -/
abbrev Reg := Fin 16

/-- `zext_16` (00_scope.md section 6): zeros on the left. -/
abbrev zext16 {k : Nat} (v : BitVec k) : Word := v.setWidth 16

end Sys2Proof
end

