-- ==== Sys2Proof/WellFormed.lean ====
section
/-! DEFINITION. Which instruction terms are instructions of the machine: a `sys` whose word is not CLS or RET (R57), an
`unknown` whose word no other row of the opcode map matches (R56). Every other term is well-formed by its types. -/

namespace Sys2Proof

/-- The words of 30_encoding.md R56: no pattern of the 35 handlers matches. -/
def unrecognised (w : Word) : Bool :=
  let op := w.toNat / 4096
  let n := w.toNat % 16
  let kk := w.toNat % 256
  (op == 5 && n != 0) || (op == 8 && (7 < n && n != 0xE)) || (op == 9 && n != 0) ||
  (op == 0xE && !([0x9E, 0xA1].contains kk)) ||
  (op == 0xF && !([0x07, 0x0A, 0x15, 0x18, 0x1E, 0x29, 0x33, 0x55, 0x65].contains kk))

/-- The `nnn` of a word `0nnn` that is SYS and not CLS or RET (R57). -/
def sysOperand (nnn : Addr12) : Bool := nnn != 0x0E0 && nnn != 0x0EE

/-- A term that is an instruction of the machine. -/
def Instr.wellFormed : Instr → Bool
  | .sys nnn => sysOperand nnn
  | .unknown w => unrecognised w
  | .cls | .ret | .jp _ | .call _ | .seImm _ _ | .sneImm _ _ | .seReg _ _ | .ldImm _ _ | .addImm _ _
  | .ldReg _ _ | .orReg _ _ | .andReg _ _ | .xorReg _ _ | .addReg _ _ | .subReg _ _ | .shr _ _ | .subn _ _
  | .shl _ _ | .sneReg _ _ | .ldI _ | .jpV0 _ | .rnd _ _ | .drw _ _ _ | .skp _ | .sknp _ | .ldVxDt _
  | .ldVxK _ | .ldDtVx _ | .ldStVx _ | .addI _ | .ldF _ | .ldB _ | .storeRegs _ | .loadRegs _ => true

end Sys2Proof
end

