-- ==== Sys2Proof/Decode.lean ====
section
/-! DEFINITION. The decoder (30_encoding.md R50 to R58), total on any bytes, rejecting by name; after it the encoder and the
opcode map of R55 as mask and match rows. -/

namespace Sys2Proof

/-- Field `op = w[15:12]` (R51). -/
def fieldOp (w : Word) : Nat := w.toNat / 4096

/-- Field `x = w[11:8]` (R51). -/
def fieldX (w : Word) : Reg := ⟨w.toNat / 256 % 16, Nat.mod_lt _ (by decide)⟩

/-- Field `y = w[7:4]` (R51). -/
def fieldY (w : Word) : Reg := ⟨w.toNat / 16 % 16, Nat.mod_lt _ (by decide)⟩

/-- Field `n = w[3:0]` (R51). -/
def fieldN (w : Word) : Fin 16 := ⟨w.toNat % 16, Nat.mod_lt _ (by decide)⟩

/-- Field `kk = w[7:0]` (R51). -/
def fieldKK (w : Word) : Byte := w.setWidth 8

/-- Field `nnn = w[11:0]` (R51). -/
def fieldNNN (w : Word) : Addr12 := w.setWidth 12

/-- Family 0: the whole word for CLS and RET, every other word SYS (R54, R57). -/
def decode0 (w : Word) : Instr :=
  if w = 0x00E0 then .cls else if w = 0x00EE then .ret else .sys (fieldNNN w)

/-- Family 8: the low nibble selects (R54). -/
def decode8 (w : Word) : Instr :=
  let x := fieldX w
  let y := fieldY w
  match (fieldN w).val with
  | 0 => .ldReg x y
  | 1 => .orReg x y
  | 2 => .andReg x y
  | 3 => .xorReg x y
  | 4 => .addReg x y
  | 5 => .subReg x y
  | 6 => .shr x y
  | 7 => .subn x y
  | 14 => .shl x y
  | _ => .unknown w

/-- Family E: the low byte selects (R54). -/
def decodeE (w : Word) : Instr :=
  if fieldKK w = 0x9E then .skp (fieldX w)
  else if fieldKK w = 0xA1 then .sknp (fieldX w)
  else .unknown w

/-- Family F: the low byte selects (R54). -/
def decodeF (w : Word) : Instr :=
  let x := fieldX w
  if fieldKK w = 0x07 then .ldVxDt x
  else if fieldKK w = 0x0A then .ldVxK x
  else if fieldKK w = 0x15 then .ldDtVx x
  else if fieldKK w = 0x18 then .ldStVx x
  else if fieldKK w = 0x1E then .addI x
  else if fieldKK w = 0x29 then .ldF x
  else if fieldKK w = 0x33 then .ldB x
  else if fieldKK w = 0x55 then .storeRegs x
  else if fieldKK w = 0x65 then .loadRegs x
  else .unknown w

/-- The instruction of a word (R54): the top nibble selects the family. Total: every word has one (R51, R56). -/
def decodeWord (w : Word) : Instr :=
  match fieldOp w with
  | 0 => decode0 w
  | 1 => .jp (fieldNNN w)
  | 2 => .call (fieldNNN w)
  | 3 => .seImm (fieldX w) (fieldKK w)
  | 4 => .sneImm (fieldX w) (fieldKK w)
  | 5 => if fieldN w = 0 then .seReg (fieldX w) (fieldY w) else .unknown w
  | 6 => .ldImm (fieldX w) (fieldKK w)
  | 7 => .addImm (fieldX w) (fieldKK w)
  | 8 => decode8 w
  | 9 => if fieldN w = 0 then .sneReg (fieldX w) (fieldY w) else .unknown w
  | 10 => .ldI (fieldNNN w)
  | 11 => .jpV0 (fieldNNN w)
  | 12 => .rnd (fieldX w) (fieldKK w)
  | 13 => .drw (fieldX w) (fieldY w) (fieldN w)
  | 14 => decodeE w
  | _ => decodeF w

/-- The word two bytes of memory make: the byte at the lower address is the more significant one (20_memory.md R33). -/
def wordOfBytes (hi lo : Byte) : Word := hi ++ lo

/-- The two bytes of a word as memory holds them, the first at the lower address (R33). -/
def bytesOfWord (w : Word) : List Byte := [w.extractLsb' 8 8, w.extractLsb' 0 8]

/-- Why bytes are no instruction. Every word is one (R56), so only missing bytes are rejected (R50: two bytes always). -/
inductive DecodeError where
  /-- fewer than two bytes were given -/
  | truncated
  deriving DecidableEq, Repr

/-- The decoder on bytes: the first instruction and the bytes after it (R50, R58: always two bytes). -/
def decode : List Byte → Except DecodeError (Instr × List Byte)
  | hi :: lo :: rest => .ok (decodeWord (wordOfBytes hi lo), rest)
  | _ => .error .truncated

/-- Format A: `op` and `nnn` (R52). -/
def formatA (op : Nat) (nnn : Addr12) : Word := BitVec.ofNat 16 (op * 4096 + nnn.toNat)

/-- Format I: `op`, `x` and `kk` (R52). -/
def formatI (op : Nat) (x : Reg) (kk : Byte) : Word := BitVec.ofNat 16 (op * 4096 + x.val * 256 + kk.toNat)

/-- Formats R and D: `op`, `x`, `y` and a low nibble, a secondary opcode or `n` (R52). -/
def formatR (op : Nat) (x y : Reg) (low : Fin 16) : Word :=
  BitVec.ofNat 16 (op * 4096 + x.val * 256 + y.val * 16 + low.val)

/-- The word of an instruction, from the patterns of R55. -/
def encode : Instr → Word
  | .cls => 0x00E0
  | .ret => 0x00EE
  | .jp nnn => formatA 1 nnn
  | .call nnn => formatA 2 nnn
  | .seImm x kk => formatI 3 x kk
  | .sneImm x kk => formatI 4 x kk
  | .seReg x y => formatR 5 x y 0
  | .ldImm x kk => formatI 6 x kk
  | .addImm x kk => formatI 7 x kk
  | .ldReg x y => formatR 8 x y 0
  | .orReg x y => formatR 8 x y 1
  | .andReg x y => formatR 8 x y 2
  | .xorReg x y => formatR 8 x y 3
  | .addReg x y => formatR 8 x y 4
  | .subReg x y => formatR 8 x y 5
  | .shr x y => formatR 8 x y 6
  | .subn x y => formatR 8 x y 7
  | .shl x y => formatR 8 x y 14
  | .sneReg x y => formatR 9 x y 0
  | .ldI nnn => formatA 10 nnn
  | .jpV0 nnn => formatA 11 nnn
  | .rnd x kk => formatI 12 x kk
  | .drw x y n => formatR 13 x y n
  | .skp x => formatI 14 x 0x9E
  | .sknp x => formatI 14 x 0xA1
  | .ldVxDt x => formatI 15 x 0x07
  | .ldVxK x => formatI 15 x 0x0A
  | .ldDtVx x => formatI 15 x 0x15
  | .ldStVx x => formatI 15 x 0x18
  | .addI x => formatI 15 x 0x1E
  | .ldF x => formatI 15 x 0x29
  | .ldB x => formatI 15 x 0x33
  | .storeRegs x => formatI 15 x 0x55
  | .loadRegs x => formatI 15 x 0x65
  | .sys nnn => formatA 0 nnn
  | .unknown w => w

/-- A row of the opcode map: a word selects it when `w and mask = value` (R54). -/
structure OpcodeRow where
  mask : Word
  value : Word
  deriving DecidableEq, Repr

/-- Does a word match a row (R54)? -/
def OpcodeRow.matchesWord (r : OpcodeRow) (w : Word) : Bool := w &&& r.mask == r.value

/-- How many 1 bits the mask has: of several rows that match, the one with the most wins (R54). -/
def OpcodeRow.weight (r : OpcodeRow) : Nat := (List.range 16).countP (fun k => r.mask.getLsbD k)

/-- The opcode map of R55, row by row in the table's order, the catch-all last. -/
def opcodeTable : List OpcodeRow :=
  [⟨0xFFFF, 0x00E0⟩, ⟨0xFFFF, 0x00EE⟩, ⟨0xF000, 0x1000⟩, ⟨0xF000, 0x2000⟩, ⟨0xF000, 0x3000⟩, ⟨0xF000, 0x4000⟩] ++
  [⟨0xF00F, 0x5000⟩, ⟨0xF000, 0x6000⟩, ⟨0xF000, 0x7000⟩, ⟨0xF00F, 0x8000⟩, ⟨0xF00F, 0x8001⟩, ⟨0xF00F, 0x8002⟩] ++
  [⟨0xF00F, 0x8003⟩, ⟨0xF00F, 0x8004⟩, ⟨0xF00F, 0x8005⟩, ⟨0xF00F, 0x8006⟩, ⟨0xF00F, 0x8007⟩, ⟨0xF00F, 0x800E⟩] ++
  [⟨0xF00F, 0x9000⟩, ⟨0xF000, 0xA000⟩, ⟨0xF000, 0xB000⟩, ⟨0xF000, 0xC000⟩, ⟨0xF000, 0xD000⟩, ⟨0xF0FF, 0xE09E⟩] ++
  [⟨0xF0FF, 0xE0A1⟩, ⟨0xF0FF, 0xF007⟩, ⟨0xF0FF, 0xF00A⟩, ⟨0xF0FF, 0xF015⟩, ⟨0xF0FF, 0xF018⟩, ⟨0xF0FF, 0xF01E⟩] ++
  [⟨0xF0FF, 0xF029⟩, ⟨0xF0FF, 0xF033⟩, ⟨0xF0FF, 0xF055⟩, ⟨0xF0FF, 0xF065⟩, ⟨0xF000, 0x0000⟩, ⟨0x0000, 0x0000⟩]

/-- The row of the opcode map an instruction stands in (R55). -/
def Instr.row : Instr → OpcodeRow
  | .cls => ⟨0xFFFF, 0x00E0⟩
  | .ret => ⟨0xFFFF, 0x00EE⟩
  | .jp _ => ⟨0xF000, 0x1000⟩
  | .call _ => ⟨0xF000, 0x2000⟩
  | .seImm _ _ => ⟨0xF000, 0x3000⟩
  | .sneImm _ _ => ⟨0xF000, 0x4000⟩
  | .seReg _ _ => ⟨0xF00F, 0x5000⟩
  | .ldImm _ _ => ⟨0xF000, 0x6000⟩
  | .addImm _ _ => ⟨0xF000, 0x7000⟩
  | .ldReg _ _ => ⟨0xF00F, 0x8000⟩
  | .orReg _ _ => ⟨0xF00F, 0x8001⟩
  | .andReg _ _ => ⟨0xF00F, 0x8002⟩
  | .xorReg _ _ => ⟨0xF00F, 0x8003⟩
  | .addReg _ _ => ⟨0xF00F, 0x8004⟩
  | .subReg _ _ => ⟨0xF00F, 0x8005⟩
  | .shr _ _ => ⟨0xF00F, 0x8006⟩
  | .subn _ _ => ⟨0xF00F, 0x8007⟩
  | .shl _ _ => ⟨0xF00F, 0x800E⟩
  | .sneReg _ _ => ⟨0xF00F, 0x9000⟩
  | .ldI _ => ⟨0xF000, 0xA000⟩
  | .jpV0 _ => ⟨0xF000, 0xB000⟩
  | .rnd _ _ => ⟨0xF000, 0xC000⟩
  | .drw _ _ _ => ⟨0xF000, 0xD000⟩
  | .skp _ => ⟨0xF0FF, 0xE09E⟩
  | .sknp _ => ⟨0xF0FF, 0xE0A1⟩
  | .ldVxDt _ => ⟨0xF0FF, 0xF007⟩
  | .ldVxK _ => ⟨0xF0FF, 0xF00A⟩
  | .ldDtVx _ => ⟨0xF0FF, 0xF015⟩
  | .ldStVx _ => ⟨0xF0FF, 0xF018⟩
  | .addI _ => ⟨0xF0FF, 0xF01E⟩
  | .ldF _ => ⟨0xF0FF, 0xF029⟩
  | .ldB _ => ⟨0xF0FF, 0xF033⟩
  | .storeRegs _ => ⟨0xF0FF, 0xF055⟩
  | .loadRegs _ => ⟨0xF0FF, 0xF065⟩
  | .sys _ => ⟨0xF000, 0x0000⟩
  | .unknown _ => ⟨0x0000, 0x0000⟩

/-- The word the opcode table's numbering gives: bits above `nbits` are 0; none if it does not fit the 16 bits of an
instruction (R50, R58). -/
def tableWord (nbits w : Nat) : Option Word :=
  let v := w % 2 ^ nbits
  if v < 2 ^ 16 then some (BitVec.ofNat 16 v) else none

/-- The instruction this decoder reads from the table's bits: the word is laid out as memory holds it (R33) and decoded. -/
def decodeTableWord (nbits w : Nat) : Option Instr :=
  match tableWord nbits w with
  | none => none
  | some v =>
    match decode (bytesOfWord v) with
    | .ok (i, []) => some i
    | _ => none

end Sys2Proof
end

