-- ==== Sys2Proof/Config.lean ====
section
/-! DEFINITION. What one implementation fixes and what the spec leaves open: the sizes of 00_scope.md section 5, the six
quirk straps (10_state.md R21), the glyph bytes (R23), the events of the ports (00_scope.md R3), and the free values: the bytes of the
random input (60_exceptions.md R162) and the order of the events (00_scope.md R2). -/

namespace Sys2Proof

/-- The six quirk values (10_state.md R21), each named after its strap `Q_...`. -/
structure Quirks where
  /-- `Q_LOGIC_RESETS_VF`: OR, AND, XOR also write VF <- 0. -/
  logicResetsVf : Bool
  /-- `Q_SHIFT_VX_ONLY`: SHR, SHL shift `Vx`; otherwise they shift `Vy` into `Vx`. -/
  shiftVxOnly : Bool
  /-- `Q_JUMP_VX`: `Bnnn` adds `V[nnn[11:8]]`; otherwise `V0`. -/
  jumpVx : Bool
  /-- `Q_CLIP`: DRW drops pixels past the right and bottom edges; otherwise it wraps them. -/
  clip : Bool
  /-- `Q_WAIT_FRAME`: DRW stalls until `frame_ready`. -/
  waitFrame : Bool
  /-- `Q_INC_I`: LD [I] and LD Vx,[I] add `x + 1` to `I`. -/
  incI : Bool
  deriving DecidableEq, Repr

/-- The 80 bytes of the glyph table `FONT[0..79]` (10_state.md R23). -/
abbrev Font := Vector Byte 80

namespace Machine

/-- An input event (00_scope.md R1, R3): the core's `step` and the host's other events. A key number is 4 bits (R160). -/
inductive Event where
  /-- one instruction, or nothing when a fault is recorded (40_step_control.md R70) -/
  | step
  /-- 60_exceptions.md R158 -/
  | tick
  /-- R159 -/
  | keyDown (k : Fin 16)
  /-- R159 -/
  | keyUp (k : Fin 16)
  /-- R161 -/
  | frameTick
  /-- 70_reset_and_hazards.md R181 -/
  | load (image : List Byte)
  /-- R180, with the strap levels at the event (R21) -/
  | reset (straps : Quirks)
  deriving DecidableEq, Repr, Inhabited

end Machine

namespace Config

/-- `MEM_SIZE` (00_scope.md section 5). -/
abbrev memSize : Nat := 4096

/-- `FONT_BASE`: where the glyphs stand (R17, R31). -/
abbrev fontBase : Nat := 0x050

/-- Number of glyph bytes: 16 glyphs of 5 bytes (R23). -/
abbrev fontSize : Nat := 80

/-- `PROG_BASE`: where an image is loaded and where the first fetch after reset happens (R24, R31). -/
abbrev progBase : Nat := 0x200

/-- `PROG_MAX`: the largest image (R181). -/
abbrev progMax : Nat := 3584

/-- `STACK_DEPTH` (R14). -/
abbrev stackDepth : Nat := 16

/-- `FB_W` (R130). -/
abbrev fbWidth : Nat := 64

/-- `FB_H` (R130). -/
abbrev fbHeight : Nat := 32

/-- The default glyph table of R23, digit by digit. PRESUMED (log 5): the spec marks the bytes as general knowledge. -/
def defaultFontBytes : List Byte :=
  [0xF0, 0x90, 0x90, 0x90, 0xF0] ++ [0x20, 0x60, 0x20, 0x20, 0x70] ++
  [0xF0, 0x10, 0xF0, 0x80, 0xF0] ++ [0xF0, 0x10, 0xF0, 0x10, 0xF0] ++
  [0x90, 0x90, 0xF0, 0x10, 0x10] ++ [0xF0, 0x80, 0xF0, 0x10, 0xF0] ++
  [0xF0, 0x80, 0xF0, 0x90, 0xF0] ++ [0xF0, 0x10, 0x20, 0x40, 0x40] ++
  [0xF0, 0x90, 0xF0, 0x90, 0xF0] ++ [0xF0, 0x90, 0xF0, 0x10, 0xF0] ++
  [0xF0, 0x90, 0xF0, 0x90, 0x90] ++ [0xE0, 0x90, 0xE0, 0x90, 0xE0] ++
  [0xF0, 0x80, 0x80, 0x80, 0xF0] ++ [0xE0, 0x90, 0x90, 0x90, 0xE0] ++
  [0xF0, 0x80, 0xF0, 0x80, 0xF0] ++ [0xF0, 0x80, 0xF0, 0x80, 0x80]

/-- The default of the open parameter `FONT` (R23), used by `State.reset` only: statements hold for every font. -/
def defaultFont : Font := ⟨defaultFontBytes.toArray, by decide⟩

/-- The strap levels `State.reset` is taken at. DESIGN CHOICE (log 6): the one default the spec states is `Q_CLIP` true
(R21); the other five are open and stand at false, as in the conventions of 95_test_vectors.md. -/
def defaultStraps : Quirks :=
  { logicResetsVf := false, shiftVxOnly := false, jumpVx := false, clip := true, waitFrame := false, incI := false }

/-- The byte on `rand_in` at its `k`-th sampling (60_exceptions.md R162): a FREE VALUE (log 3). Nothing constrains it, so it covers
a platform that ties the input to the open constant `RAND_CONST` as well (00_scope.md section 5, log 7). -/
opaque randIn : Nat → Byte

/-- The `n`-th event of an order the host chooses (00_scope.md R2, decision D23): a FREE VALUE (log 24). Nothing constrains it, so it
covers every endless order, fair or not. -/
opaque hostEvent : Nat → Machine.Event

end Config
end Sys2Proof
end

