-- ==== Sys2Proof/Machine/State.lean ====
section
/-! DEFINITION. The state of the machine as plain data (10_state.md), the output events of its ports (00_scope.md R3), the host's
order of events (R2), the reasons a step can stop, and the state right after reset (R24). -/

namespace Sys2Proof.Machine

/-- The codes of the fault report (60_exceptions.md R150). A fault is a NEXT state that records one of these (R151). -/
inductive FaultCode where
  /-- 0: no fault since reset -/
  | none
  /-- 1: CALL with all 16 entries in use -/
  | stackOverflow
  /-- 2: RET with no entry in use -/
  | stackUnderflow
  /-- 3: a data access above 0xFFF -/
  | memRange
  /-- 4: a fetch with `pc > 0xFFE` -/
  | fetchRange
  deriving DecidableEq, Repr

/-- The fault report `fault = (code, addr)` shown on the `fault` output (10_state.md R20). -/
structure FaultReport where
  code : FaultCode
  addr : Word
  deriving DecidableEq, Repr

/-- The two kinds of the `diag` port (60_exceptions.md R164). -/
inductive DiagKind where
  | sys
  | unknown
  deriving DecidableEq, Repr

/-- An output event (00_scope.md R3). -/
inductive OutEvent where
  /-- `fb_changed(snapshot)`: the framebuffer as the 256 bytes of 44_display.md R135 -/
  | fbChanged (snapshot : List Byte)
  /-- `diag(kind, word)` (60_exceptions.md R164) -/
  | diag (kind : DiagKind) (word : Word)
  /-- `load_fail` (70_reset_and_hazards.md R181) -/
  | loadFail
  deriving DecidableEq, Repr

/-- The order of the events after those listed in `schedule` (00_scope.md R2: the host's, unconstrained; no fairness, decision D23). It
has no end, so a host that never sends `step` again, or never `tick`, is a legal order. MODEL'S OWN (logs 2, 24). -/
inductive HostOrder where
  /-- these events, `first` next, over and over for ever -/
  | cycle (first : Event) (rest : List Event)
  /-- the free order `Config.hostEvent` from its `n`-th event on -/
  | free (n : Nat)
  deriving DecidableEq, Repr

/-- Memory as the listed bytes that differ from the reset contents (20_memory.md R30, R31; canonical form: `Memory.wf`). -/
abbrev Memory := List Host.Cell

/-- The framebuffer: 32 rows from the top, each 64 bits with column 0 in the most significant bit (10_state.md R18: the packing
inside the block is not observable; log 11). -/
abbrev Framebuffer := Vector (BitVec 64) 32

/-- The state (10_state.md, R22), then the model's own fields. -/
structure State where
  /-- `V[0]` to `V[15]`, VF last (R10, R11) -/
  v : Vector Byte 16
  /-- the program counter (R12) -/
  pc : Word
  /-- the index register `I` (R13) -/
  idx : Word
  /-- the number of stack entries in use, 0 to 16 (R14) -/
  sp : Fin 17
  /-- the call stack (R14) -/
  stack : Vector Word 16
  /-- the delay timer `DT` (R15) -/
  dt : Byte
  /-- the sound timer `ST` (R15) -/
  st : Byte
  /-- the keypad latch, true = down (R16) -/
  key : Vector Bool 16
  /-- the 4096 bytes of memory (R17) -/
  mem : Memory
  /-- the 64 by 32 pixels (R18) -/
  fb : Framebuffer
  /-- the frame-ready flag (R19) -/
  frameReady : Bool
  /-- the fault report (R20) -/
  fault : FaultReport
  /-- the quirk configuration (R21) -/
  quirks : Quirks
  /-- MODEL'S OWN: the open parameter `FONT` (R23; log 5) -/
  font : Font
  /-- MODEL'S OWN: how many bytes `rand_in` has supplied (60_exceptions.md R162; log 3) -/
  randDraws : Nat
  /-- MODEL'S OWN: the output events emitted so far, newest first (00_scope.md R3; log 4) -/
  out : List OutEvent
  /-- MODEL'S OWN: the next events in the host's order (R2; log 2) -/
  schedule : List Event
  /-- MODEL'S OWN: the events after those of `schedule`, without end (R2; logs 2, 24) -/
  hostOrder : HostOrder
  deriving DecidableEq, Repr

/-- Reasons a step could stop with a fault OUTCOME. There are none: every fault of this hardware has an entry the spec
describes (60_exceptions.md R151), so it is a NEXT state with the report set, and a later `step` changes nothing (R152). -/
inductive Fault where
  deriving DecidableEq, Repr

/-- Reasons a step could be refused. -/
inductive Refusal where
  /-- Raised by an arm of `exec` whose instruction has no meaning yet; safe: nothing is claimed of it. No arm raises it. -/
  | notModelled (mnemonic : String)
  deriving DecidableEq, Repr

/-- The machine right after a `reset` event with these straps, this glyph table and this order of the events to come (R24,
70_reset_and_hazards.md R180). The glyphs need no listing: memory that nothing has written reads as the reset contents
(`Memory.blank`). -/
def State.initial (font : Font) (straps : Quirks) (order : HostOrder) : State :=
  { v := Vector.replicate 16 0
    pc := 0x0200
    idx := 0
    sp := 0
    stack := Vector.replicate 16 0
    dt := 0
    st := 0
    key := Vector.replicate 16 false
    mem := []
    fb := Vector.replicate 32 0
    frameReady := false
    fault := { code := .none, addr := 0 }
    quirks := straps
    font := font
    randDraws := 0
    out := []
    schedule := []
    hostOrder := order }

/-- The machine right after reset (R24), with the default glyph table (log 5), the straps of log 6 and a host that sends `step` only
(log 2). -/
def State.reset : State := State.initial Config.defaultFont Config.defaultStraps (.cycle .step [])

end Sys2Proof.Machine
end

