-- ==== Sys2Proof/Machine/Ops.lean ====
section
/-! DEFINITION. The named operations over registers, memory, the call stack, the framebuffer and the ports, and taking a
fault (20_memory.md, 44_display.md, 60_exceptions.md R151), over which every meaning is written. -/

namespace Sys2Proof.Machine

/-- The outcome of one step. -/
abbrev Outcome := Host.Outcome State Fault Refusal

/-! ## Registers -/

/-- Read `V[r]` (10_state.md R10). -/
def State.getV (s : State) (r : Reg) : Byte := s.v[r.val]

/-- Write `V[r]` (R10: none is hardwired). -/
def State.setV (s : State) (r : Reg) (b : Byte) : State := { s with v := s.v.set r.val b }

/-- The number of VF (R11). -/
abbrev regVF : Reg := 15

/-- Write VF (R11). -/
def State.setVF (s : State) (b : Byte) : State := s.setV regVF b

/-! ## Memory -/

/-- What a byte reads as that nothing has written since reset: a glyph byte at 0x050 to 0x09F, else 0 (10_state.md R24). -/
def Memory.blank (font : Font) (a : Nat) : Byte :=
  if h : Config.fontBase ≤ a ∧ a < Config.fontBase + Config.fontSize then font[a - Config.fontBase]'(by
    simp only [Config.fontBase, Config.fontSize] at *; omega)
  else 0

/-- The canonical form of memory: addresses strictly rising, all below 4096, no byte equal to what an unlisted address reads
as. -/
abbrev Memory.wf (font : Font) (m : Memory) : Prop :=
  m.Pairwise (fun c d => c.1 < d.1) ∧ ∀ c ∈ m, c.1 < Config.memSize ∧ c.2 ≠ Memory.blank font c.1

/-- The byte at an address (20_memory.md R32); the range check is the instruction's (43_index_memory.md R126). -/
def Memory.read (font : Font) (m : Memory) (a : Nat) : Byte :=
  match m.lookup a with
  | some b => b
  | none => Memory.blank font a

/-- Take every entry of an address out. -/
def Memory.erase (m : Memory) (a : Nat) : Memory := m.filter (fun c => c.1 != a)

/-- Put an entry before the first higher address. -/
def Memory.insert (a : Nat) (b : Byte) : Memory → Memory
  | [] => [(a, b)]
  | c :: rest => if a < c.1 then (a, b) :: c :: rest else c :: Memory.insert a b rest

/-- Store one byte (R32), in the canonical form: a byte equal to the reset contents is not listed. -/
def Memory.write (font : Font) (m : Memory) (a : Nat) (b : Byte) : Memory :=
  if b = Memory.blank font a then Memory.erase m a else Memory.insert a b (Memory.erase m a)

/-- Store bytes at ascending addresses (R35). -/
def Memory.writeList (font : Font) (m : Memory) (a : Nat) : List Byte → Memory
  | [] => m
  | b :: bs => Memory.writeList font (Memory.write font m a b) (a + 1) bs

/-- The byte of memory at an address (R32). -/
def State.readByte (s : State) (a : Nat) : Byte := Memory.read s.font s.mem a

/-- The `n` bytes from an address up (R35). -/
def State.readBytes (s : State) (a n : Nat) : List Byte := (List.range n).map (fun j => s.readByte (a + j))

/-- Store bytes at ascending addresses (R32, R35). -/
def State.storeBytes (s : State) (a : Nat) (bs : List Byte) : State :=
  { s with mem := Memory.writeList s.font s.mem a bs }

/-- Load `V[0]` to `V[n-1]` from the `n` bytes at an address (43_index_memory.md R125). -/
def fillRegs (read : Nat → Byte) (base : Nat) : Nat → Vector Byte 16 → Vector Byte 16
  | 0, v => v
  | n + 1, v => (fillRegs read base n v).setIfInBounds n (read (base + n))

/-! ## Taking a fault -/

/-- The number of a fault code on the `fault` output (60_exceptions.md R150). -/
def FaultCode.number : FaultCode → Nat
  | .none => 0
  | .stackOverflow => 1
  | .stackUnderflow => 2
  | .memRange => 3
  | .fetchRange => 4

/-- Take the fetch advance back: `pc` is the instruction's own address again (40_step_control.md R71, 60_exceptions.md R151). -/
def State.rewind (s : State) : State := { s with pc := s.pc - 2 }

/-- Fault entry (60_exceptions.md R151) from the state before the step: everything keeps its value, the report is set, nothing
is emitted. The only way back is a `reset` event (R152, R155). -/
def takeFault (f : FaultReport) (s : State) : Outcome := .next { s with fault := f }

/-- A handler raises a fault: the step is undone, the fetch advance included (R151). The handlers call it before any effect. -/
def raise (code : FaultCode) (addr : Word) (s : State) : Outcome := takeFault ⟨code, addr⟩ s.rewind

/-! ## Program counter -/

/-- The skip primitive (41_skips.md R90): 2 on top of the fetch advance when the condition holds. -/
def skipIf (c : Bool) (s : State) : Outcome := .next (if c then { s with pc := s.pc + 2 } else s)

/-- A stall (40_step_control.md R71): `pc` back at the instruction, nothing else. -/
def stall (s : State) : Outcome := .next s.rewind

/-! ## Call stack -/

/-- Push `pc` (R76); none when all 16 entries are in use. -/
def State.push (s : State) : Option State :=
  if h : s.sp.val < Config.stackDepth then
    some { s with stack := s.stack.set s.sp.val s.pc, sp := ⟨s.sp.val + 1, Nat.succ_lt_succ h⟩ }
  else none

/-- Pop into `pc` (R74); none when no entry is in use. The entry keeps its value (10_state.md R14). -/
def State.pop (s : State) : Option State :=
  if h : 0 < s.sp.val then
    some { s with sp := ⟨s.sp.val - 1, by omega⟩, pc := s.stack[s.sp.val - 1]'(by omega) }
  else none

/-! ## Data address range -/

/-- Does an access set `I` to `I + m` lie in memory (43_index_memory.md R126)? The sum is a natural number (20_memory.md R32). -/
def State.inRange (s : State) (m : Nat) : Bool := s.idx.toNat + m ≤ 0xFFF

/-- The lowest out-of-range address of the set, `max(I, 0x1000)` (R126). -/
def State.rangeAddr (s : State) : Word := BitVec.ofNat 16 (max s.idx.toNat 0x1000)

/-- Range check before effect (R126): MemRange, or go on with every access in range, so that R32's own check never raises. -/
def withRange (m : Nat) (s : State) (go : State → Outcome) : Outcome :=
  if s.inRange m then go s else raise .memRange s.rangeAddr s

/-! ## Framebuffer -/

/-- `fb[row][col]` (44_display.md R130). -/
def Framebuffer.pixel (fb : Framebuffer) (row : Fin 32) (col : Fin 64) : Bool := fb[row.val].getMsbD col.val

/-- `fb[row][col] <- fb[row][col] xor 1` (R132). -/
def Framebuffer.flip (fb : Framebuffer) (row : Fin 32) (col : Fin 64) : Framebuffer :=
  fb.set row.val (fb[row.val] ^^^ BitVec.twoPow 64 (63 - col.val))

/-- All pixels 0 (R133). -/
def Framebuffer.clear : Framebuffer := Vector.replicate 32 0

/-- Where position `pos` of a draw lands on a side of the screen (R132): on the screen as it stands; past the edge dropped when
clipping, else wrapped to the opposite edge. -/
def place (clip : Bool) (size : Nat) [NeZero size] (pos : Nat) : Option (Fin size) :=
  if pos < size then some (Fin.ofNat size pos)
  else if clip then none
  else some (Fin.ofNat size (pos - size))

/-- What a draw has done so far: the framebuffer and whether a lit pixel went dark. -/
abbrev Drawing := Framebuffer × Bool

/-- One pixel of a sprite row: bit `7 - c` is sprite column `c` (R131); a 1 bit flips its pixel, and a lit pixel is a hit. -/
def drawBit (clip : Bool) (row : Fin 32) (cx : Nat) (b : Byte) (d : Drawing) (c : Nat) : Drawing :=
  match place clip 64 (cx + c) with
  | none => d
  | some col => if b.getLsbD (7 - c) then (d.1.flip row col, d.2 || d.1.pixel row col) else d

/-- One row of a sprite: its 8 columns (R131, R132). -/
def drawRow (clip : Bool) (row : Fin 32) (cx : Nat) (b : Byte) (d : Drawing) : Drawing :=
  (List.range 8).foldl (drawBit clip row cx b) d

/-- The row byte of a sprite that falls on screen position `pos`: drawn where the position lands, or dropped (R132). -/
def drawAt (clip : Bool) (cx pos : Nat) (b : Byte) (d : Drawing) : Drawing :=
  match place clip 32 pos with
  | none => d
  | some row => drawRow clip row cx b d

/-- The rows of a sprite from screen position `pos` down (R132). -/
def drawSprite (clip : Bool) (cx : Nat) : Nat → List Byte → Drawing → Drawing
  | _, [], d => d
  | pos, b :: bs, d => drawSprite clip cx (pos + 1) bs (drawAt clip cx pos b d)

/-- The eight bytes of a framebuffer row on the port, leftmost pixel in bit 7 of the first (R135). -/
def rowBytes (row : BitVec 64) : List Byte := (List.range 8).map (fun k => row.extractLsb' (56 - 8 * k) 8)

/-- The 256 bytes of the `fb_changed` port (R135): the rows from the top, each from the left. -/
def Framebuffer.snapshot (fb : Framebuffer) : List Byte := fb.toList.flatMap rowBytes

/-! ## Ports -/

/-- Emit an output event (00_scope.md R3, R4): nothing of the core changes. -/
def State.emit (e : OutEvent) (s : State) : State := { s with out := e :: s.out }

/-- Sample `rand_in` once (60_exceptions.md R162): the next free byte. -/
def State.drawRand (s : State) : Byte × State := (Config.randIn s.randDraws, { s with randDraws := s.randDraws + 1 })

/-! ## Fetch -/

/-- The fetch primitive (20_memory.md R36): the two bytes at `pc`, or FetchRange. -/
def fetch (s : State) : Except FaultReport Word :=
  if 0xFFE < s.pc.toNat then .error ⟨.fetchRange, s.pc⟩
  else .ok (wordOfBytes (s.readByte s.pc.toNat) (s.readByte (s.pc.toNat + 1)))

/-- The fetch advance (40_step_control.md R70): every handler sees `pc = a + 2`. -/
def State.advance (s : State) : State := { s with pc := s.pc + 2 }

/-! ## The order of events (00_scope.md R2) -/

/-- The first event of an endless order. -/
def HostOrder.first : HostOrder → Event
  | .cycle e _ => e
  | .free n => Config.hostEvent n

/-- An endless order without its first event. -/
def HostOrder.tail : HostOrder → HostOrder
  | .cycle e [] => .cycle e []
  | .cycle e (e' :: es) => .cycle e' (es ++ [e])
  | .free n => .free (n + 1)

/-- The next event: the first one listed, else the first of the endless order. -/
def State.event (s : State) : Event :=
  match s.schedule with
  | [] => s.hostOrder.first
  | e :: _ => e

/-- The endless order once the next event is taken. -/
def State.restOrder (s : State) : HostOrder :=
  match s.schedule with
  | [] => s.hostOrder.tail
  | _ :: _ => s.hostOrder

/-- Take the next event off the order. -/
def State.consume (s : State) : State := { s with schedule := s.schedule.tail, hostOrder := s.restOrder }

/-- Is the next event the core's `step`? -/
def State.stepIsNext (s : State) : Bool :=
  match s.event with
  | .step => true
  | _ => false

/-! ## Placing a word -/

/-- Make a word the next instruction: its two bytes at `pc` (R33), after what the fetch needs: no fault recorded, a `pc` that can
be fetched from, `step` the next event (each kept where it is so already). It stands for a host that loads (log 12). -/
def placeWord (s : State) (w : Word) : State :=
  let pc := if 0xFFE < s.pc.toNat then 0x0200 else s.pc
  { s with
    fault := if s.fault.code = FaultCode.none then s.fault else ⟨FaultCode.none, 0⟩
    schedule := if s.stepIsNext then s.schedule else .step :: s.schedule
    pc := pc }.storeBytes pc.toNat (bytesOfWord w)

end Sys2Proof.Machine
end

