-- ==== Sys2Proof/Machine/Flags.lean ====
section
/-! DEFINITION. The values VF receives (10_state.md R11, 42_alu.md R100, R108 to R112, 44_display.md R132): each is the byte 0 or
1, and it is written last (42_alu.md R101). -/

namespace Sys2Proof.Machine

/-- A flag as VF holds it: 0x00 or 0x01 (R11). -/
def flagByte (b : Bool) : Byte := if b then 1 else 0

/-- Carry out of bit 7 of a sum (R108). -/
def carryOut (a b : Byte) : Bool := 255 < a.toNat + b.toNat

/-- No borrow in `a - b` (R109, R111). -/
def noBorrow (a b : Byte) : Bool := b.toNat ≤ a.toNat

/-- The bit a right shift drops (R110). -/
def shrOut (b : Byte) : Bool := b.getLsbD 0

/-- The bit a left shift drops (R112). -/
def shlOut (b : Byte) : Bool := b.getLsbD 7

/-- Write `V[x]`, then the flag to VF (R101): with `x = 15` the flag is what VF holds. -/
def State.setWithFlag (s : State) (x : Reg) (b : Byte) (f : Bool) : State := (s.setV x b).setVF (flagByte f)

/-- Write `V[x]`, then VF <- 0 when `Q_LOGIC_RESETS_VF` (R105 to R107). -/
def State.setLogic (s : State) (x : Reg) (b : Byte) : State :=
  if s.quirks.logicResetsVf then (s.setV x b).setVF 0 else s.setV x b

end Sys2Proof.Machine
end

