-- ==== Sys2Proof/Machine/Operands.lean ====
section
/-! DEFINITION. The operands the handlers compute before they write anything (42_alu.md R101): shift sources, jump offsets, digits,
glyph addresses, the key that is down, sprite anchors. -/

namespace Sys2Proof.Machine

/-- The source of a shift: `Vx` under `Q_SHIFT_VX_ONLY`, else `Vy` (42_alu.md R110). -/
def shiftSource (s : State) (x y : Reg) : Byte := if s.quirks.shiftVxOnly then s.getV x else s.getV y

/-- The register `Bnnn` adds: `V[nnn[11:8]]` under `Q_JUMP_VX`, else `V0` (40_step_control.md R78). -/
def jumpReg (s : State) (nnn : Addr12) : Reg :=
  if s.quirks.jumpVx then ⟨nnn.toNat / 256, by have := nnn.isLt; omega⟩ else 0

/-- The three decimal digits of a byte, hundreds first (43_index_memory.md R123). -/
def bcdDigits (b : Byte) : List Byte :=
  [BitVec.ofNat 8 (b.toNat / 100), BitVec.ofNat 8 (b.toNat / 10 % 10), BitVec.ofNat 8 (b.toNat % 10)]

/-- The address of a glyph: the whole byte times 5 above the font base (R122). -/
def glyphAddr (b : Byte) : Word := BitVec.ofNat 16 (Config.fontBase + 5 * b.toNat)

/-- `V[0]` to `V[x]` in order (R124). -/
def regsUpTo (s : State) (x : Reg) : List Byte := s.v.toList.take (x.val + 1)

/-- `I` after a block transfer: `x + 1` more under `Q_INC_I` (R124, R125). -/
def idxAfterBlock (s : State) (x : Reg) : Word := if s.quirks.incI then s.idx + BitVec.ofNat 16 (x.val + 1) else s.idx

/-- The key a register names: its low 4 bits (45_keypad_timers.md R140). -/
def keyOf (b : Byte) : Fin 16 := ⟨b.toNat % 16, Nat.mod_lt _ (by decide)⟩

/-- Is a key down (10_state.md R16)? -/
def State.keyDown (s : State) (k : Fin 16) : Bool := s.key[k.val]

/-- The smallest key that is down, if any is (R145). -/
def lowestKey (s : State) : Option (Fin 16) := (List.finRange 16).find? (fun k => s.keyDown k)

/-- The column of the anchor, `V[x] mod 64` (44_display.md R130). -/
def anchorCol (s : State) (x : Reg) : Nat := (s.getV x).toNat % 64

/-- The row of the anchor, `V[y] mod 32` (R130). -/
def anchorRow (s : State) (y : Reg) : Nat := (s.getV y).toNat % 32

/-- Must a draw wait: `Q_WAIT_FRAME` and `frame_ready = 0` (R132)? -/
def frameGate (s : State) : Bool := s.quirks.waitFrame && !s.frameReady

end Sys2Proof.Machine
end

