-- ==== Sys2Proof/Machine/Alu.lean ====
section
/-! DEFINITION. Register loads, arithmetic, logic, shifts, random (42_alu.md R102 to R113). -/

namespace Sys2Proof.Machine

/-- LD Vx, kk (R102). -/
def execLdImm (x : Reg) (kk : Byte) (s : State) : Outcome := .next (s.setV x kk)

/-- ADD Vx, kk (R103): no flag. -/
def execAddImm (x : Reg) (kk : Byte) (s : State) : Outcome := .next (s.setV x (s.getV x + kk))

/-- LD Vx, Vy (R104). -/
def execLdReg (x y : Reg) (s : State) : Outcome := .next (s.setV x (s.getV y))

/-- OR Vx, Vy (R105). -/
def execOr (x y : Reg) (s : State) : Outcome := .next (s.setLogic x (s.getV x ||| s.getV y))

/-- AND Vx, Vy (R106). -/
def execAnd (x y : Reg) (s : State) : Outcome := .next (s.setLogic x (s.getV x &&& s.getV y))

/-- XOR Vx, Vy (R107). -/
def execXor (x y : Reg) (s : State) : Outcome := .next (s.setLogic x (s.getV x ^^^ s.getV y))

/-- ADD Vx, Vy (R108). -/
def execAddReg (x y : Reg) (s : State) : Outcome :=
  .next (s.setWithFlag x (s.getV x + s.getV y) (carryOut (s.getV x) (s.getV y)))

/-- SUB Vx, Vy (R109): `Vx - Vy`. -/
def execSub (x y : Reg) (s : State) : Outcome :=
  .next (s.setWithFlag x (s.getV x - s.getV y) (noBorrow (s.getV x) (s.getV y)))

/-- SHR Vx, Vy (R110). -/
def execShr (x y : Reg) (s : State) : Outcome :=
  .next (s.setWithFlag x (shiftSource s x y >>> 1) (shrOut (shiftSource s x y)))

/-- SUBN Vx, Vy (R111): `Vy - Vx`. -/
def execSubn (x y : Reg) (s : State) : Outcome :=
  .next (s.setWithFlag x (s.getV y - s.getV x) (noBorrow (s.getV y) (s.getV x)))

/-- SHL Vx, Vy (R112). -/
def execShl (x y : Reg) (s : State) : Outcome :=
  .next (s.setWithFlag x (shiftSource s x y <<< 1) (shlOut (shiftSource s x y)))

/-- RND Vx, kk (R113): one sample of `rand_in`, a free value. -/
def execRnd (x : Reg) (kk : Byte) (s : State) : Outcome :=
  let (r, t) := s.drawRand
  .next (t.setV x (r &&& kk))

end Sys2Proof.Machine
end

