-- ==== Sys2Proof/Machine/Control.lean ====
section
/-! DEFINITION. No-op instructions, return, jump, call (40_step_control.md R72 to R78). On entry `pc = a + 2` (R70). -/

namespace Sys2Proof.Machine

/-- SYS (R72): a diagnostic with the word, nothing else. -/
def execSys (nnn : Addr12) (s : State) : Outcome := .next (s.emit (.diag .sys (encode (.sys nnn))))

/-- UNKNOWN (R73): a diagnostic with the word, nothing else. -/
def execUnknown (w : Word) (s : State) : Outcome := .next (s.emit (.diag .unknown w))

/-- RET (R74). -/
def execRet (s : State) : Outcome :=
  match s.pop with
  | some t => .next t
  | none => raise .stackUnderflow s.rewind.pc s

/-- JP nnn (R75). -/
def execJp (nnn : Addr12) (s : State) : Outcome := .next { s with pc := zext16 nnn }

/-- CALL nnn (R76). -/
def execCall (nnn : Addr12) (s : State) : Outcome :=
  match s.push with
  | some t => .next { t with pc := zext16 nnn }
  | none => raise .stackOverflow s.rewind.pc s

/-- JP V0, nnn (R78). -/
def execJpV0 (nnn : Addr12) (s : State) : Outcome :=
  .next { s with pc := zext16 nnn + zext16 (s.getV (jumpReg s nnn)) }

end Sys2Proof.Machine
end

