-- ==== Sys2Proof/Machine/Display.lean ====
section
/-! DEFINITION. Clear and sprite draw (44_display.md R130 to R135). -/

namespace Sys2Proof.Machine

/-- CLS (R133): all pixels 0, one notification. -/
def execCls (s : State) : Outcome :=
  .next ({ s with fb := Framebuffer.clear }.emit (.fbChanged Framebuffer.clear.snapshot))

/-- The framebuffer and the collision a draw of `n` rows leaves (R132). -/
def drawing (x y : Reg) (n : Nat) (s : State) : Drawing :=
  drawSprite s.quirks.clip (anchorCol s x) (anchorRow s y) (s.readBytes s.idx.toNat n) (s.fb, false)

/-- A draw that goes ahead (R132): pixels, then VF, the flag it consumes under `Q_WAIT_FRAME`, one notification. -/
def drawNow (x y : Reg) (n : Nat) (s : State) : State :=
  let d := drawing x y n s
  ({ s with fb := d.1, frameReady := if s.quirks.waitFrame then false else s.frameReady }.setVF (flagByte d.2)).emit
    (.fbChanged d.1.snapshot)

/-- DRW Vx, Vy, n (R132): the stall test, then the range test when any row is read, then the draw. -/
def execDrw (x y : Reg) (n : Fin 16) (s : State) : Outcome :=
  if frameGate s then stall s
  else if n.val = 0 then .next (drawNow x y 0 s)
  else withRange (n.val - 1) s fun s => .next (drawNow x y n.val s)

end Sys2Proof.Machine
end

