-- ==== Sys2Proof/Machine/IndexMemory.lean ====
section
/-! DEFINITION. Index register and memory instructions (43_index_memory.md R120 to R126). -/

namespace Sys2Proof.Machine

/-- LD I, nnn (R120). -/
def execLdI (nnn : Addr12) (s : State) : Outcome := .next { s with idx := zext16 nnn }

/-- ADD I, Vx (R121): modulo 65536, no flag. -/
def execAddI (x : Reg) (s : State) : Outcome := .next { s with idx := s.idx + zext16 (s.getV x) }

/-- LD F, Vx (R122). -/
def execLdF (x : Reg) (s : State) : Outcome := .next { s with idx := glyphAddr (s.getV x) }

/-- LD B, Vx (R123). -/
def execLdB (x : Reg) (s : State) : Outcome :=
  withRange 2 s fun s => .next (s.storeBytes s.idx.toNat (bcdDigits (s.getV x)))

/-- LD [I], Vx (R124): every address from the old `I`. -/
def execStoreRegs (x : Reg) (s : State) : Outcome :=
  withRange x.val s fun s =>
    .next { s.storeBytes s.idx.toNat (regsUpTo s x) with idx := idxAfterBlock s x }

/-- LD Vx, [I] (R125): every address from the old `I`. -/
def execLoadRegs (x : Reg) (s : State) : Outcome :=
  withRange x.val s fun s =>
    .next { s with v := fillRegs s.readByte s.idx.toNat (x.val + 1) s.v, idx := idxAfterBlock s x }

end Sys2Proof.Machine
end

