-- ==== Sys2Proof/Machine/KeypadTimers.lean ====
section
/-! DEFINITION. Keypad and timer instructions (45_keypad_timers.md R140 to R145). -/

namespace Sys2Proof.Machine

/-- SKP Vx (R140). -/
def execSkp (x : Reg) (s : State) : Outcome := skipIf (s.keyDown (keyOf (s.getV x))) s

/-- SKNP Vx (R141). -/
def execSknp (x : Reg) (s : State) : Outcome := skipIf (!s.keyDown (keyOf (s.getV x))) s

/-- LD Vx, DT (R142). -/
def execLdVxDt (x : Reg) (s : State) : Outcome := .next (s.setV x s.dt)

/-- LD Vx, K (R145): stall while no key is down, else the smallest key that is. -/
def execLdVxK (x : Reg) (s : State) : Outcome :=
  match lowestKey s with
  | none => stall s
  | some k => .next (s.setV x (BitVec.ofNat 8 k.val))

/-- LD DT, Vx (R143). -/
def execLdDtVx (x : Reg) (s : State) : Outcome := .next { s with dt := s.getV x }

/-- LD ST, Vx (R144). -/
def execLdStVx (x : Reg) (s : State) : Outcome := .next { s with st := s.getV x }

end Sys2Proof.Machine
end

