-- ==== Sys2Proof/Machine/Skips.lean ====
section
/-! DEFINITION. Conditional skips on register values (41_skips.md R90 to R94). -/

namespace Sys2Proof.Machine

/-- SE Vx, kk (R91). -/
def execSeImm (x : Reg) (kk : Byte) (s : State) : Outcome := skipIf (s.getV x == kk) s

/-- SNE Vx, kk (R92). -/
def execSneImm (x : Reg) (kk : Byte) (s : State) : Outcome := skipIf (s.getV x != kk) s

/-- SE Vx, Vy (R93). -/
def execSeReg (x y : Reg) (s : State) : Outcome := skipIf (s.getV x == s.getV y) s

/-- SNE Vx, Vy (R94). -/
def execSneReg (x y : Reg) (s : State) : Outcome := skipIf (s.getV x != s.getV y) s

end Sys2Proof.Machine
end

