-- ==== Sys2Proof/Machine/Events.lean ====
section
/-! DEFINITION. What the host's events do (60_exceptions.md R158 to R161, 70_reset_and_hazards.md R180, R181). They act whether
or not a fault is recorded (R152). -/

namespace Sys2Proof.Machine

/-- One less, not below 0 (R158: neither timer wraps). -/
def countDown (b : Byte) : Byte := if b = 0 then 0 else b - 1

/-- `tick` (R158): both timers. -/
def onTick (s : State) : State := { s with dt := countDown s.dt, st := countDown s.st }

/-- `key_down(k)` (R159). -/
def onKeyDown (k : Fin 16) (s : State) : State := { s with key := s.key.set k.val true }

/-- `key_up(k)` (R159). -/
def onKeyUp (k : Fin 16) (s : State) : State := { s with key := s.key.set k.val false }

/-- `frame_tick` (R161). -/
def onFrameTick (s : State) : State := { s with frameReady := true }

/-- `load(image)` (R181): the bytes from 0x200, or `load_fail` and nothing else when there are more than 3584. -/
def onLoad (image : List Byte) (s : State) : State :=
  if Config.progMax < image.length then s.emit .loadFail else s.storeBytes Config.progBase image

/-- `reset` (R180): every field of the core at its reset value (10_state.md R24), the straps sampled (R21). The model's own
fields go on: what was emitted stays emitted, the free bytes are not drawn again, the later events come (log 8). -/
def onReset (straps : Quirks) (s : State) : State :=
  { State.initial s.font straps s.hostOrder with randDraws := s.randDraws, out := s.out, schedule := s.schedule }

end Sys2Proof.Machine
end

