-- ==== Sys2Proof/Machine/Cycle.lean ====
section
/-! DEFINITION. The step cycle (40_step_control.md R70) and one event of the total order (00_scope.md R2). -/

namespace Sys2Proof.Machine

/-- The core's `step` event (R70): nothing when a fault is recorded (60_exceptions.md R152); else fetch, advance, decode, run. -/
def stepEvent (s : State) : Outcome :=
  if s.fault.code = .none then
    match fetch s with
    | .error f => takeFault f s
    | .ok w => exec (decodeWord w) s.advance
  else .next s

/-- One event (00_scope.md R1, R2): the core's `step`, or an event of the host. -/
def runEvent (e : Event) (s : State) : Outcome :=
  match e with
  | .step => stepEvent s
  | .tick => .next (onTick s)
  | .keyDown k => .next (onKeyDown k s)
  | .keyUp k => .next (onKeyUp k s)
  | .frameTick => .next (onFrameTick s)
  | .load image => .next (onLoad image s)
  | .reset straps => .next (onReset straps s)

/-- The next event of the order the state holds (R2), whichever it is. -/
def nextEvent (s : State) : Outcome := runEvent s.event s.consume

end Sys2Proof.Machine
end

