-- ==== Sys2Proof/Machine/Step.lean ====
section
/-! DEFINITION. One step of the machine: one event of the total order of 00_scope.md R2. When the host's next
event is `step` it is one instruction (40_step_control.md R70). -/

namespace Sys2Proof.Machine

/-- One step: next, fault or refusal. -/
def step (s : State) : Host.Outcome State Fault Refusal := nextEvent s

/-- The state with the instruction of the opcode table's bits stored where `step` fetches next (log 12); a word that is no
16-bit instruction places nothing. -/
def State.withFetchWord (s : State) (nbits w : Nat) : State :=
  match tableWord nbits w with
  | none => s
  | some v => placeWord s v

end Sys2Proof.Machine
end

