-- ==== Sys2Proof/Safety.lean ====
section
/-! DEFINITION. The terms statements use: a run without a fault, a finished program, the invariant every step keeps, a host that sends
only ticks, keys and frames, which register an instruction may write, what a store leaves in memory, which pixels a sprite covers. -/

namespace Sys2Proof.Machine

/-- No fault is recorded (10_state.md R20): what "the program has not faulted" means. -/
abbrev NoFault (s : State) : Prop := s.fault.code = .none

/-- A program has finished (70_reset_and_hazards.md R188): `pc` stands at a jump to itself, no fault is recorded. -/
def Finished (s : State) : Prop :=
  NoFault s ∧ fetch s = .ok (encode (.jp (s.pc.setWidth 12)))

/-- The fault report tells the truth about the state it stopped in (60_exceptions.md R150, R151). -/
def ReportHonest (s : State) : Prop :=
  match s.fault.code with
  | .none => True
  | .stackOverflow => s.sp = 16 ∧ s.fault.addr = s.pc
  | .stackUnderflow => s.sp = 0 ∧ s.fault.addr = s.pc
  | .memRange => 0xFF1 ≤ s.idx.toNat ∧ s.fault.addr = s.rangeAddr
  | .fetchRange => 0xFFE < s.pc.toNat ∧ s.fault.addr = s.pc

/-- What holds in every reachable state: memory is canonical, `pc` is at most 0x10FE (10_state.md R12), a stack entry in use is
at most 0x1000 (40_step_control.md R74), the fault report is honest. -/
structure Invariant (s : State) : Prop where
  memWf : Memory.wf s.font s.mem
  pcBound : s.pc.toNat ≤ 0x10FE
  stackBound : ∀ j : Fin 16, j.val < s.sp.val → s.stack[j.val].toNat ≤ 0x1000
  report : ReportHonest s

/-- May an instruction write register `r` (the write rows of the table in 10_state.md R10)? -/
def mayWrite (q : Quirks) (r : Reg) : Instr → Bool
  | .ldImm x _ | .addImm x _ | .ldReg x _ | .rnd x _ | .ldVxDt x | .ldVxK x => r == x
  | .orReg x _ | .andReg x _ | .xorReg x _ => r == x || (q.logicResetsVf && r == 15)
  | .addReg x _ | .subReg x _ | .shr x _ | .subn x _ | .shl x _ => r == x || r == 15
  | .drw _ _ _ => r == 15
  | .loadRegs x => r ≤ x
  | .cls | .ret | .jp _ | .call _ | .seImm _ _ | .sneImm _ _ | .seReg _ _ | .sneReg _ _ | .ldI _ | .jpV0 _
  | .skp _ | .sknp _ | .ldDtVx _ | .ldStVx _ | .addI _ | .ldF _ | .ldB _ | .storeRegs _ | .sys _ | .unknown _ => false

/-- The bytes of memory with the `n` bytes from address `a` up replaced by `b 0`, `b 1`, … (20_memory.md R35). -/
def storedOver (before : Nat → Byte) (a n : Nat) (b : Nat → Byte) (k : Nat) : Byte :=
  if a ≤ k ∧ k < a + n then b (k - a) else before k

/-- `n` steps, one after the other: `n` events of the host's order (00_scope.md R2). -/
def runSteps : Nat → State → Outcome
  | 0, s => .next s
  | n + 1, s =>
    match step s with
    | .next t => runSteps n t
    | o => o

/-- Is the event a `tick`, a key event or a `frame_tick`: every host event but `load` and `reset` (00_scope.md R1, R3)? -/
def Event.isTickKeyFrame : Event → Bool
  | .tick | .keyDown _ | .keyUp _ | .frameTick => true
  | .step | .load _ | .reset _ => false

/-- Every event of an endless order is one of these. -/
def HostOrder.OnlyTickKeyFrame : HostOrder → Prop
  | .cycle e es => ∀ e' ∈ e :: es, e'.isTickKeyFrame = true
  | .free n => ∀ k, n ≤ k → (Config.hostEvent k).isTickKeyFrame = true

/-- The host sends these events for ever, and never `step`, `load` or `reset`: a legal order, because no fairness is assumed (R2,
decision D23). -/
def OnlyTickKeyFrame (s : State) : Prop := (∀ e ∈ s.schedule, e.isTickKeyFrame = true) ∧ s.hostOrder.OnlyTickKeyFrame

/-- Does a sprite of `n` rows, drawn by DRW Vx, Vy, n in `s`, flip the pixel (44_display.md R130 to R132)? A 1 bit of row `r`,
column `c`, whose place is the pixel: past an edge nowhere under `Q_CLIP`, else counted from the opposite edge. -/
def Covers (s : State) (x y : Reg) (n : Nat) (row : Fin 32) (col : Fin 64) : Prop :=
  ∃ r < n, ∃ c < 8, (s.readByte (s.idx.toNat + r)).getLsbD (7 - c) = true ∧
    if s.quirks.clip then (s.getV y).toNat % 32 + r = row.val ∧ (s.getV x).toNat % 64 + c = col.val
    else ((s.getV y).toNat % 32 + r) % 32 = row.val ∧ ((s.getV x).toNat % 64 + c) % 64 = col.val

end Sys2Proof.Machine
end

