-- ==== Sys2Proof/Certificates/Slice0/Obligations.lean ====
section
/-! DEFINITION. The statements about the machine, each from the rules of spec/. A statement about one instruction is about `exec`
in the state its handler starts in, after the fetch advance: `s.pc` is `a + 2` for the instruction's address `a`
(40_step_control.md R70). `t = { s with f := t.f }` says that every field of the state but `f` is unchanged. -/

open Sys2Proof Sys2Proof.Machine

/-! ## Encoding -/

/-- Words written out from the encodings of 30_encoding.md R55, one or more for each format of R52. -/
def Obligations.DecodeSampleWords : Prop :=
  decodeWord 0b0000000011100000 = .cls ∧ decodeWord 0b0000000011101110 = .ret ∧
  decodeWord 0b0001101010111100 = .jp 0xABC ∧ decodeWord 0b0010001000001100 = .call 0x20C ∧
  decodeWord 0b0011000100000000 = .seImm 1 0 ∧ decodeWord 0b1000000000010100 = .addReg 0 1 ∧
  decodeWord 0b1101000100100101 = .drw 1 2 5 ∧ decodeWord 0b1110010110011110 = .skp 5 ∧
  decodeWord 0b1111001001100101 = .loadRegs 2 ∧ decodeWord 0b0000001000110100 = .sys 0x234 ∧
  decodeWord 0b0101000100100001 = .unknown 0x5121

/-- The decoder reads every well-formed instruction back from its word. -/
def Obligations.DecodeEncode : Prop :=
  ∀ i : Instr, i.wellFormed = true → decodeWord (encode i) = i

/-- Every word decodes to a well-formed instruction, and encodes back to itself: decoding loses no bit (R51, R56: total). -/
def Obligations.EncodeDecode : Prop :=
  ∀ w : Word, (decodeWord w).wellFormed = true ∧ encode (decodeWord w) = w

/-- R54: the decoder selects the row of the opcode map that matches with the most 1 bits in its mask, which is also the first row
that matches when the table is read from the top. -/
def Obligations.DecodeFollowsOpcodeMap : Prop :=
  ∀ w : Word, (decodeWord w).row.matchesWord w = true ∧
    (∀ r ∈ opcodeTable, r.matchesWord w = true → r ≠ (decodeWord w).row → r.weight < (decodeWord w).row.weight) ∧
    opcodeTable.find? (fun r => r.matchesWord w) = some (decodeWord w).row

/-- R56, R57: which words no pattern matches, and what every word with top nibble 0 is. -/
def Obligations.UnrecognisedWords : Prop :=
  ∀ w : Word,
    (decodeWord w = .unknown w ↔
      (fieldOp w = 5 ∧ fieldN w ≠ 0) ∨
      (fieldOp w = 8 ∧ (fieldN w).val ∈ [8, 9, 0xA, 0xB, 0xC, 0xD, 0xF]) ∨
      (fieldOp w = 9 ∧ fieldN w ≠ 0) ∨
      (fieldOp w = 0xE ∧ fieldKK w ∉ [0x9E, 0xA1]) ∨
      (fieldOp w = 0xF ∧ fieldKK w ∉ [0x07, 0x0A, 0x15, 0x18, 0x1E, 0x29, 0x33, 0x55, 0x65])) ∧
    (fieldOp w = 0 → w ≠ 0x00E0 → w ≠ 0x00EE → decodeWord w = .sys (fieldNNN w))

/-! ## The step cycle -/

/-- A step whose next event is `step` runs the instruction the two bytes at `pc` decode to, after the fetch advance (R70).
`s.consume` is `s` with that event taken off the host's order, which is the model's own (log 2); no field of the core differs. -/
def Obligations.StepRunsDecoded : Prop :=
  ∀ (s : State) (i : Instr), s.stepIsNext = true → NoFault s → s.pc.toNat ≤ 0xFFE →
    decode [s.readByte s.pc.toNat, s.readByte (s.pc.toNat + 1)] = .ok (i, []) →
    step s = exec i { s.consume with pc := s.pc + 2 }

/-- A `step` event with a fault recorded changes nothing (R70, R152; decision D3 of the spec). -/
def Obligations.FaultHaltsCore : Prop :=
  ∀ s : State, s.stepIsNext = true → ¬ NoFault s → step s = .next s.consume

/-- A fetch with `pc > 0xFFE` records FetchRange with `pc` and changes nothing else (R36, R151; decision D7 of the spec). -/
def Obligations.FetchOutOfRange : Prop :=
  ∀ s : State, s.stepIsNext = true → NoFault s → 0xFFE < s.pc.toNat →
    step s = .next { s.consume with fault := ⟨.fetchRange, s.pc⟩ }

/-- Every step answers a next state: no step is refused and none stops the machine with a fault outcome, whatever is in memory
(R70: a step always terminates; R56: no encoding traps; R151: a fault is a state). -/
def Obligations.EveryStepCompletes : Prop :=
  ∀ s : State, ∃ t, step s = .next t

/-- R151: a step that records a fault changes nothing but the fault report, whichever instruction raised it: `pc` is the
instruction's own address, no register, no byte of memory and no output event. (Decision D3 of the spec.) -/
def Obligations.FaultsArePrecise : Prop :=
  ∀ s t : State, s.stepIsNext = true → NoFault s → step s = .next t → ¬ NoFault t →
    t = { s.consume with fault := t.fault }

/-- R152, R155: a recorded fault stays as it is until a `reset` event (decision D3 of the spec). -/
def Obligations.OnlyResetClearsFault : Prop :=
  ∀ s t : State, ¬ NoFault s → (∀ straps, s.event ≠ .reset straps) → step s = .next t → t.fault = s.fault

/-- The word placed by `withFetchWord` is the instruction the very next step runs (log 12 of the model). -/
def Obligations.PlacedWordRuns : Prop :=
  ∀ (s : State) (w : Word), ∃ u, s.withFetchWord 16 w.toNat = u ∧ u.pc.toNat ≤ 0xFFE ∧
    step u = exec (decodeWord w) { u.consume with pc := u.pc + 2 }

/-! ## No-op instructions and control transfer -/

/-- R72, R73: a diagnostic with the instruction word; `pc` stays `a + 2` and nothing else changes. -/
def Obligations.NoOpsOnlyReport : Prop :=
  (∀ (nnn : Addr12) (s : State), ∃ t w, exec (.sys nnn) s = .next t ∧ w.toNat = nnn.toNat ∧
    t = { s with out := .diag .sys w :: s.out }) ∧
  (∀ (w : Word) (s : State), exec (.unknown w) s = .next { s with out := .diag .unknown w :: s.out })

/-- R75: JP loads `pc` with `nnn`. -/
def Obligations.JumpTarget : Prop :=
  ∀ (nnn : Addr12) (s : State), ∃ t, exec (.jp nnn) s = .next t ∧ t.pc.toNat = nnn.toNat ∧ t = { s with pc := t.pc }

/-- R78: JP V0 adds `V0`, or under `Q_JUMP_VX` the register named by `nnn[11:8]`; the sum is not reduced. -/
def Obligations.JumpOffsetTarget : Prop :=
  ∀ (nnn : Addr12) (s : State), ∃ t, ∃ r : Reg, exec (.jpV0 nnn) s = .next t ∧
    r.val = (if s.quirks.jumpVx then nnn.toNat / 256 else 0) ∧
    t.pc.toNat = nnn.toNat + (s.getV r).toNat ∧ t = { s with pc := t.pc }

/-- CALL with a free entry pushes the address of the instruction after the call and jumps (R76; decision D4 of the spec). -/
def Obligations.CallPushes : Prop :=
  ∀ (nnn : Addr12) (s : State), s.sp.val < 16 → ∃ t, exec (.call nnn) s = .next t ∧
    t.pc.toNat = nnn.toNat ∧ t.sp.val = s.sp.val + 1 ∧
    (∀ j : Fin 16, t.stack[j.val] = if j.val = s.sp.val then s.pc else s.stack[j.val]) ∧
    t = { s with pc := t.pc, sp := t.sp, stack := t.stack }

/-- RET with an entry in use pops it into `pc`; the entry is not erased (R74; decision D4 of the spec). -/
def Obligations.RetPops : Prop :=
  ∀ s : State, ∀ j : Fin 16, s.sp.val = j.val + 1 → ∃ t, exec .ret s = .next t ∧
    t.pc = s.stack[j.val] ∧ t.sp.val = j.val ∧ t = { s with pc := t.pc, sp := t.sp }

/-- CALL on a full stack and RET on an empty one record their fault with the instruction's address `a = pc - 2`, and leave
everything else as it was before the step (R74, R76, R150, R151; decisions D3, D4 of the spec). -/
def Obligations.StackFaults : Prop :=
  (∀ (nnn : Addr12) (s : State), s.sp = 16 →
    exec (.call nnn) s = .next { s with pc := s.pc - 2, fault := ⟨.stackOverflow, s.pc - 2⟩ }) ∧
  (∀ s : State, s.sp = 0 → exec .ret s = .next { s with pc := s.pc - 2, fault := ⟨.stackUnderflow, s.pc - 2⟩ })

/-- CALL, then RET at the same depth, returns to the instruction after the call, whatever ran between that left the stack as the
CALL did (R76: the round trip; R77). -/
def Obligations.CallReturnRoundTrip : Prop :=
  ∀ (nnn : Addr12) (s t u : State), s.sp ≠ 16 → exec (.call nnn) s = .next t → u.sp = t.sp → u.stack = t.stack →
    ∃ w, exec .ret u = .next w ∧ w.pc = s.pc ∧ w.sp = s.sp

/-! ## Skips -/

/-- R91 to R94: `pc` is 2 further when the condition holds, and nothing else changes. -/
def Obligations.RegisterSkips : Prop :=
  ∀ (x y : Reg) (kk : Byte) (s : State),
    exec (.seImm x kk) s = .next { s with pc := if s.getV x = kk then s.pc + 2 else s.pc } ∧
    exec (.sneImm x kk) s = .next { s with pc := if s.getV x ≠ kk then s.pc + 2 else s.pc } ∧
    exec (.seReg x y) s = .next { s with pc := if s.getV x = s.getV y then s.pc + 2 else s.pc } ∧
    exec (.sneReg x y) s = .next { s with pc := if s.getV x ≠ s.getV y then s.pc + 2 else s.pc }

/-- R140, R141: the key is the low 4 bits of `Vx`; the latch level at this step decides. -/
def Obligations.KeySkips : Prop :=
  ∀ (x : Reg) (s : State) (k : Fin 16), k.val = (s.getV x).toNat % 16 →
    exec (.skp x) s = .next { s with pc := if s.key[k.val] = true then s.pc + 2 else s.pc } ∧
    exec (.sknp x) s = .next { s with pc := if s.key[k.val] = false then s.pc + 2 else s.pc }

/-! ## Loads, arithmetic, logic, shifts, random -/

/-- R102 to R104: the loads and the immediate add write `Vx` and nothing else; the add is modulo 256 and sets no flag. -/
def Obligations.LoadsAndImmediateAdd : Prop :=
  ∀ (x y : Reg) (kk : Byte) (s : State),
    (∃ t, exec (.ldImm x kk) s = .next t ∧ (∀ r, t.getV r = if r = x then kk else s.getV r) ∧ t = { s with v := t.v }) ∧
    (∃ t, exec (.addImm x kk) s = .next t ∧ (t.getV x).toNat = ((s.getV x).toNat + kk.toNat) % 256 ∧
      (∀ r, r ≠ x → t.getV r = s.getV r) ∧ t = { s with v := t.v }) ∧
    (∃ t, exec (.ldReg x y) s = .next t ∧ (∀ r, t.getV r = if r = x then s.getV y else s.getV r) ∧ t = { s with v := t.v })

/-- The logic instructions write the bitwise result to `Vx`; under `Q_LOGIC_RESETS_VF` VF is 0 afterwards, also when it is the
destination (R105 to R107; for x = 15 the order is R101, the spec's decision D5, log 18). -/
def Obligations.LogicResults : Prop :=
  ∀ (x y : Reg) (s : State) (i : Instr) (res : Byte),
    (i = .orReg x y ∧ res = s.getV x ||| s.getV y) ∨ (i = .andReg x y ∧ res = s.getV x &&& s.getV y) ∨
      (i = .xorReg x y ∧ res = s.getV x ^^^ s.getV y) →
    ∃ t, exec i s = .next t ∧
      (∀ r, t.getV r = if s.quirks.logicResetsVf = true ∧ r = 15 then 0 else if r = x then res else s.getV r) ∧
      t = { s with v := t.v }

/-- The result modulo 256 in `Vx` for `x` other than 15, VF = carry or no borrow for every `x`, every other register and field
unchanged (R108, R109, R111; that VF holds the flag and not the result for x = 15 is R101, the spec's decision D5, log 18). -/
def Obligations.AddSubtractResults : Prop :=
  ∀ (x y : Reg) (s : State) (a b : Nat), a = (s.getV x).toNat → b = (s.getV y).toNat →
    (∃ t, exec (.addReg x y) s = .next t ∧ t.getV 15 = (if 255 < a + b then 1 else 0) ∧
      (x ≠ 15 → (t.getV x).toNat = (a + b) % 256) ∧ (∀ r, r ≠ x → r ≠ 15 → t.getV r = s.getV r) ∧ t = { s with v := t.v }) ∧
    (∃ t, exec (.subReg x y) s = .next t ∧ t.getV 15 = (if b ≤ a then 1 else 0) ∧
      (x ≠ 15 → (t.getV x).toNat = (256 + a - b) % 256) ∧ (∀ r, r ≠ x → r ≠ 15 → t.getV r = s.getV r) ∧
      t = { s with v := t.v }) ∧
    (∃ t, exec (.subn x y) s = .next t ∧ t.getV 15 = (if a ≤ b then 1 else 0) ∧
      (x ≠ 15 → (t.getV x).toNat = (256 + b - a) % 256) ∧ (∀ r, r ≠ x → r ≠ 15 → t.getV r = s.getV r) ∧
      t = { s with v := t.v })

/-- The shifts take `Vx` under `Q_SHIFT_VX_ONLY`, else `Vy`; `Vx` is the shifted value, VF the bit shifted out, written last
(R110, R112; for x = 15 the order is R101, the spec's decision D5, log 18). -/
def Obligations.ShiftResults : Prop :=
  ∀ (x y : Reg) (s : State) (b : Nat), b = (if s.quirks.shiftVxOnly then s.getV x else s.getV y).toNat →
    (∃ t, exec (.shr x y) s = .next t ∧ (t.getV 15).toNat = b % 2 ∧ (x ≠ 15 → (t.getV x).toNat = b / 2) ∧
      (∀ r, r ≠ x → r ≠ 15 → t.getV r = s.getV r) ∧ t = { s with v := t.v }) ∧
    (∃ t, exec (.shl x y) s = .next t ∧ (t.getV 15).toNat = b / 128 ∧ (x ≠ 15 → (t.getV x).toNat = b * 2 % 256) ∧
      (∀ r, r ≠ x → r ≠ 15 → t.getV r = s.getV r) ∧ t = { s with v := t.v })

/-- RND writes the sampled byte ANDed with `kk`; it samples once, and the byte is free (R113, R162). That the samples are the
values of `Config.randIn` at a counter is the model's choice (log 3); nothing is said of those values. -/
def Obligations.RandomMasked : Prop :=
  ∀ (x : Reg) (kk : Byte) (s : State), ∃ t, exec (.rnd x kk) s = .next t ∧
    (∀ r, t.getV r = if r = x then Config.randIn s.randDraws &&& kk else s.getV r) ∧
    t.getV x &&& ~~~kk = 0 ∧ t = { s with v := t.v, randDraws := s.randDraws + 1 }

/-! ## Index register and memory -/

/-- R120: LD I loads `nnn`, zero-extended. -/
def Obligations.IndexLoad : Prop :=
  ∀ (nnn : Addr12) (s : State), ∃ t, exec (.ldI nnn) s = .next t ∧ t.idx.toNat = nnn.toNat ∧ t = { s with idx := t.idx }

/-- ADD I wraps at 65536 and sets no flag; LD F uses the whole byte (R121, R122; decisions D19, D18 of the spec). -/
def Obligations.IndexArithmetic : Prop :=
  ∀ (x : Reg) (s : State),
    (∃ t, exec (.addI x) s = .next t ∧ t.idx.toNat = (s.idx.toNat + (s.getV x).toNat) % 65536 ∧ t = { s with idx := t.idx }) ∧
    (∃ t, exec (.ldF x) s = .next t ∧ t.idx.toNat = 0x50 + 5 * (s.getV x).toNat ∧ t = { s with idx := t.idx })

/-- LD B in range stores the hundreds, tens and ones of `Vx` at `I`, `I + 1`, `I + 2`; every other byte reads as before, and
nothing but memory changes (R123). -/
def Obligations.DecimalDigitsStored : Prop :=
  ∀ (x : Reg) (s : State) (v : Nat), v = (s.getV x).toNat → s.idx.toNat + 2 ≤ 0xFFF →
    ∃ t, exec (.ldB x) s = .next t ∧
      (t.readByte s.idx.toNat).toNat = v / 100 ∧ (t.readByte (s.idx.toNat + 1)).toNat = v / 10 % 10 ∧
      (t.readByte (s.idx.toNat + 2)).toNat = v % 10 ∧
      (∀ a, a < s.idx.toNat ∨ s.idx.toNat + 2 < a → t.readByte a = s.readByte a) ∧ t = { s with mem := t.mem }

/-- LD [I] in range stores `V0` to `Vx` at `I` to `I + x`; every other byte reads as before; `I` goes up by `x + 1` under
`Q_INC_I` and stays otherwise; nothing else changes (R124). -/
def Obligations.RegistersStored : Prop :=
  ∀ (x : Reg) (s : State), s.idx.toNat + x.val ≤ 0xFFF →
    ∃ t, exec (.storeRegs x) s = .next t ∧
      (∀ r : Reg, r ≤ x → t.readByte (s.idx.toNat + r.val) = s.getV r) ∧
      (∀ a, a < s.idx.toNat ∨ s.idx.toNat + x.val < a → t.readByte a = s.readByte a) ∧
      t.idx.toNat = (if s.quirks.incI then s.idx.toNat + x.val + 1 else s.idx.toNat) ∧
      t = { s with mem := t.mem, idx := t.idx }

/-- LD Vx, [I] in range loads `V0` to `Vx` from `I` to `I + x`; no other register and no byte of memory changes; `I` as for the
store (R125). -/
def Obligations.RegistersLoaded : Prop :=
  ∀ (x : Reg) (s : State), s.idx.toNat + x.val ≤ 0xFFF →
    ∃ t, exec (.loadRegs x) s = .next t ∧
      (∀ r : Reg, t.getV r = if r ≤ x then s.readByte (s.idx.toNat + r.val) else s.getV r) ∧
      t.idx.toNat = (if s.quirks.incI then s.idx.toNat + x.val + 1 else s.idx.toNat) ∧
      (∀ a, t.readByte a = s.readByte a) ∧ t = { s with v := t.v, idx := t.idx }

/-- An access set that leaves memory records MemRange with the lowest address out of range and has no other effect, for each of
the four instructions that access data (R126, R150, R151; decision D8 of the spec). -/
def Obligations.DataOutOfRange : Prop :=
  ∀ (x y : Reg) (n : Fin 16) (s : State) (i : Instr) (m : Nat),
    (i = .ldB x ∧ m = 2) ∨ (i = .storeRegs x ∧ m = x.val) ∨ (i = .loadRegs x ∧ m = x.val) ∨
      (i = .drw x y n ∧ m + 1 = n.val ∧ ¬ (s.quirks.waitFrame = true ∧ s.frameReady = false)) →
    0xFFF < s.idx.toNat + m →
    ∃ e : Word, e.toNat = max s.idx.toNat 0x1000 ∧
      exec i s = .next { s with pc := s.pc - 2, fault := ⟨.memRange, e⟩ }

/-- LD [I] of any `x` and LD B, each in range, complete, and every later fetch sees the bytes they stored, wherever it meets them, in
one byte or in both, until another byte of memory changes: so also the fetch right after the store, and the fetch of a state that
differs in `pc` alone. A byte outside the stored ones is fetched as it was (20_memory.md R37, R39, R33; decisions D8, D9 of the
spec). -/
def Obligations.FetchSeesStore : Prop :=
  ∀ (x : Reg) (s : State) (i : Instr) (n : Nat) (b : Nat → Byte),
    (i = .storeRegs x ∧ n = x.val + 1 ∧ ∀ r : Reg, b r.val = s.getV r) ∨
      (i = .ldB x ∧ n = 3 ∧ (b 0).toNat = (s.getV x).toNat / 100 ∧ (b 1).toNat = (s.getV x).toNat / 10 % 10 ∧
        (b 2).toNat = (s.getV x).toNat % 10) →
    s.idx.toNat + n ≤ 0x1000 →
    ∃ t, exec i s = .next t ∧ ∀ u : State, (∀ a, u.readByte a = t.readByte a) → u.pc.toNat ≤ 0xFFE →
      fetch u = .ok (BitVec.ofNat 16
        ((storedOver s.readByte s.idx.toNat n b u.pc.toNat).toNat * 256 +
          (storedOver s.readByte s.idx.toNat n b (u.pc.toNat + 1)).toNat))

/-! ## Display -/

/-- R133: every pixel is 0, one notification with the framebuffer, nothing else changes. -/
def Obligations.ClearScreen : Prop :=
  ∀ s : State, ∃ t, exec .cls s = .next t ∧ (∀ row col, t.fb.pixel row col = false) ∧
    t.out = .fbChanged t.fb.snapshot :: s.out ∧ t = { s with fb := t.fb, out := t.out }

/-- DRW that neither stalls nor faults flips exactly the pixels the sprite covers, sets VF to 1 when a covered pixel was lit and
to 0 otherwise, consumes `frame_ready` under `Q_WAIT_FRAME`, notifies once, and changes nothing else (R130 to R134; decisions D12,
D14, D22, D25 of the spec). -/
def Obligations.DrawSprite : Prop :=
  ∀ (x y : Reg) (n : Fin 16) (s : State), ¬ (s.quirks.waitFrame = true ∧ s.frameReady = false) →
    (n.val = 0 ∨ s.idx.toNat + (n.val - 1) ≤ 0xFFF) →
    ∃ t, exec (.drw x y n) s = .next t ∧
      (∀ row col, t.fb.pixel row col ≠ s.fb.pixel row col ↔ Covers s x y n.val row col) ∧
      ((t.getV 15 = 1 ∧ ∃ row col, Covers s x y n.val row col ∧ s.fb.pixel row col = true) ∨
        (t.getV 15 = 0 ∧ ∀ row col, Covers s x y n.val row col → s.fb.pixel row col = false)) ∧
      (∀ r, r ≠ 15 → t.getV r = s.getV r) ∧
      t.frameReady = (if s.quirks.waitFrame then false else s.frameReady) ∧
      t.out = .fbChanged t.fb.snapshot :: s.out ∧
      t = { s with v := t.v, fb := t.fb, frameReady := t.frameReady, out := t.out }

/-- DRW under `Q_WAIT_FRAME` with the frame not ready stalls: `pc` is the instruction's own address and nothing else changes, even
when the sprite lies outside memory (R71, R132; decision D25 of the spec). -/
def Obligations.DrawStalls : Prop :=
  ∀ (x y : Reg) (n : Fin 16) (s : State), s.quirks.waitFrame = true → s.frameReady = false →
    exec (.drw x y n) s = .next { s with pc := s.pc - 2 }

/-- Drawing the same sprite twice at the same place restores the framebuffer exactly, whatever ran between that left the sprite
bytes, `I`, `Vx`, `Vy` and the framebuffer alone; the second draw reports a collision exactly when some covered pixel was dark
before the first (44_display.md R132: the self-inverse law, and VF by its pseudocode; log 13). -/
def Obligations.DrawTwiceRestores : Prop :=
  ∀ (x y : Reg) (n : Fin 16) (s t u : State),
    frameGate s = false → frameGate u = false → (n.val = 0 ∨ s.idx.toNat + (n.val - 1) ≤ 0xFFF) →
    exec (.drw x y n) s = .next t →
    u.fb = t.fb → u.idx = s.idx → u.getV x = s.getV x → u.getV y = s.getV y → u.quirks.clip = s.quirks.clip →
    (∀ r, r < n.val → u.readByte (s.idx.toNat + r) = s.readByte (s.idx.toNat + r)) →
    ∃ w, exec (.drw x y n) u = .next w ∧ w.fb = s.fb ∧
      (w.getV 15 = 1 ↔ ∃ row col, Covers s x y n.val row col ∧ s.fb.pixel row col = false)

/-- After CLS a draw that completes reports no collision (44_display.md R132: VF is 0 immediately after a clear). -/
def Obligations.NoCollisionAfterClear : Prop :=
  ∀ (x y : Reg) (n : Fin 16) (s t u : State), exec .cls s = .next t → u.fb = t.fb → frameGate u = false →
    (n.val = 0 ∨ u.idx.toNat + (n.val - 1) ≤ 0xFFF) → ∃ w, exec (.drw x y n) u = .next w ∧ w.getV 15 = 0

/-- The port shows 256 bytes: pixel (row, col) is bit `7 - col mod 8` of byte `8 * row + col / 8` (R135; decision D22 of the
spec). -/
def Obligations.SnapshotLayout : Prop :=
  ∀ (fb : Framebuffer) (row : Fin 32) (col : Fin 64), fb.snapshot.length = 256 ∧
    ∃ b, fb.snapshot[8 * row.val + col.val / 8]? = some b ∧ b.getLsbD (7 - col.val % 8) = fb.pixel row col

/-! ## Keypad and timers -/

/-- LD Vx, K with a key down stores the smallest key that is down and goes on (R145; decision D13 of the spec). -/
def Obligations.KeyWaitCompletes : Prop :=
  ∀ (x : Reg) (s : State) (k : Fin 16), s.key[k.val] = true → (∀ j : Fin 16, j < k → s.key[j.val] = false) →
    ∃ t, exec (.ldVxK x) s = .next t ∧ (t.getV x).toNat = k.val ∧ (∀ r, r ≠ x → t.getV r = s.getV r) ∧ t = { s with v := t.v }

/-- LD Vx, K while no key is down stalls: `pc` is the instruction's own address and nothing else changes. A step on it therefore
leaves every field of the core as it is (R71, R145); only the event is taken off the host's order, the model's own (log 2). -/
def Obligations.KeyWaitHolds : Prop :=
  ∀ (x : Reg) (s : State), (∀ k : Fin 16, s.key[k.val] = false) →
    exec (.ldVxK x) s = .next { s with pc := s.pc - 2 } ∧
    (s.stepIsNext = true → NoFault s → fetch s = .ok (encode (.ldVxK x)) →
      step s = .next s.consume)

/-- The three timer moves; each writes its destination and nothing else (R142 to R144; decision D17 of the spec). -/
def Obligations.TimerMoves : Prop :=
  ∀ (x : Reg) (s : State),
    (∃ t, exec (.ldVxDt x) s = .next t ∧ (∀ r, t.getV r = if r = x then s.dt else s.getV r) ∧ t = { s with v := t.v }) ∧
    exec (.ldDtVx x) s = .next { s with dt := s.getV x } ∧ exec (.ldStVx x) s = .next { s with st := s.getV x }

/-! ## Host events -/

/-- R158: `tick` takes 1 from each timer that is not 0, and changes nothing else, faulted or not. -/
def Obligations.TickCountsDown : Prop :=
  ∀ s : State, s.event = .tick → ∃ t, step s = .next t ∧
    t.dt.toNat = s.dt.toNat - 1 ∧ t.st.toNat = s.st.toNat - 1 ∧ t = { s.consume with dt := t.dt, st := t.st }

/-- R159: a key event sets or clears its own bit of the latch and nothing else. -/
def Obligations.KeyEvents : Prop :=
  ∀ (s : State) (k : Fin 16),
    (s.event = .keyDown k → ∃ t, step s = .next t ∧
      (∀ j : Fin 16, t.key[j.val] = if j = k then true else s.key[j.val]) ∧ t = { s.consume with key := t.key }) ∧
    (s.event = .keyUp k → ∃ t, step s = .next t ∧
      (∀ j : Fin 16, t.key[j.val] = if j = k then false else s.key[j.val]) ∧ t = { s.consume with key := t.key })

/-- `frame_tick` sets the frame-ready flag and nothing else (R161; decision D14 of the spec). -/
def Obligations.FrameTick : Prop :=
  ∀ s : State, s.event = .frameTick → step s = .next { s.consume with frameReady := true }

/-- `load` copies an image of at most 3584 bytes to 0x200 and up and touches nothing else; a longer image changes nothing and
emits `load_fail` (R153, R181; decision D26 of the spec). -/
def Obligations.LoadImage : Prop :=
  ∀ (s : State) (image : List Byte), s.event = .load image →
    (image.length ≤ 3584 → ∃ t, step s = .next t ∧
      (∀ j, j < image.length → image[j]? = some (t.readByte (0x200 + j))) ∧
      (∀ a, a < 0x200 ∨ 0x200 + image.length ≤ a → t.readByte a = s.readByte a) ∧
      t = { s.consume with mem := t.mem }) ∧
    (3584 < image.length → step s = .next { s.consume with out := .loadFail :: s.out })

/-- `reset` from any state: the values of 10_state.md R24, the straps sampled, no output event (R180; decisions D3, D14 of the
spec for the fault report and `frame_ready`). That emitted events, drawn bytes and later events are kept is the model's choice
(log 8). -/
def Obligations.ResetEvent : Prop :=
  ∀ (s : State) (straps : Quirks), s.event = .reset straps → ∃ t, step s = .next t ∧
    (∀ r, t.getV r = 0) ∧ t.pc = 0x0200 ∧ t.idx = 0 ∧ t.sp = 0 ∧ (∀ j : Fin 16, t.stack[j.val] = 0) ∧ t.dt = 0 ∧ t.st = 0 ∧
    (∀ k : Fin 16, t.key[k.val] = false) ∧
    (∀ a, t.readByte a = if h : 0x50 ≤ a ∧ a < 0xA0 then s.font[a - 0x50]'(by omega) else 0) ∧
    (∀ row col, t.fb.pixel row col = false) ∧ t.frameReady = false ∧ t.fault = ⟨.none, 0⟩ ∧ t.quirks = straps ∧
    t.font = s.font ∧ t.out = s.out ∧ t.randDraws = s.randDraws ∧
    t.schedule = s.consume.schedule ∧ t.hostOrder = s.consume.hostOrder

/-- After `reset` and one successful `load` the machine is ready: no fault, `pc` 0x200, and the word fetched next is bytes 0 and 1 of
the image (70_reset_and_hazards.md R182, R181; 20_memory.md R33). -/
def Obligations.BootFetchesImage : Prop :=
  ∀ (s : State) (straps : Quirks) (b0 b1 : Byte) (bs : List Byte),
    s.event = .reset straps → s.consume.event = .load (b0 :: b1 :: bs) → (b0 :: b1 :: bs).length ≤ 3584 →
    ∃ t u, step s = .next t ∧ step t = .next u ∧ NoFault u ∧ u.pc = 0x0200 ∧
      fetch u = .ok (BitVec.ofNat 16 (b0.toNat * 256 + b1.toNat)) ∧
      u.schedule = s.consume.consume.schedule ∧ u.hostOrder = s.consume.consume.hostOrder

/-- The state right after reset (10_state.md R24): every register and pixel 0, `pc` 0x200, no fault, every byte 0 but the glyphs at
0x050 to 0x09F. The glyph bytes and the straps it is taken at are the model's choice (logs 5, 6). -/
def Obligations.ResetState : Prop :=
  (∀ r, State.reset.getV r = 0) ∧ State.reset.pc = 0x0200 ∧ State.reset.idx = 0 ∧ State.reset.sp = 0 ∧
  (∀ j : Fin 16, State.reset.stack[j.val] = 0) ∧ State.reset.dt = 0 ∧ State.reset.st = 0 ∧
  (∀ k : Fin 16, State.reset.key[k.val] = false) ∧ (∀ row col, State.reset.fb.pixel row col = false) ∧
  State.reset.frameReady = false ∧ State.reset.fault = ⟨.none, 0⟩ ∧ State.reset.quirks = Config.defaultStraps ∧
  (∀ a, State.reset.readByte a = if h : 0x50 ≤ a ∧ a < 0xA0 then Config.defaultFont[a - 0x50]'(by omega) else 0)

/-- The host may send `tick`, key and `frame_tick` events for ever, and never `step`, `load` or `reset` (00_scope.md R2: the order is
unconstrained; decision D23 of the spec: no fairness is assumed). Under such an order the machine still runs for ever, and however
long it does, only the timers, the keys and the frame-ready flag change (R158, R159, R161): `pc`, registers, memory, pixels and the
fault report stand, so the program makes no progress. That the order is held in the state as a list and an endless rest, which
change with every event, is the model's choice (logs 2, 24). -/
def Obligations.TickKeyFrameNoProgress : Prop :=
  ∀ (n : Nat) (s : State), OnlyTickKeyFrame s → ∃ t, runSteps n s = .next t ∧
    t = { s with dt := t.dt, st := t.st, key := t.key, frameReady := t.frameReady, schedule := t.schedule,
                 hostOrder := t.hostOrder } ∧
    t.dt.toNat ≤ s.dt.toNat ∧ t.st.toNat ≤ s.st.toNat ∧ (s.frameReady = true → t.frameReady = true)

/-! ## Rules of the whole machine -/

/-- The state after reset meets the invariant, for every glyph table, every setting of the straps and every order of events. -/
def Obligations.InvariantAtReset : Prop :=
  ∀ (font : Font) (straps : Quirks) (order : HostOrder), Invariant (State.initial font straps order)

/-- Every step, whichever event it is, keeps the invariant: memory stays canonical, `pc` at most 0x10FE (R12), entries in use at
most 0x1000 (R74), and the fault report tells the truth about the state (R150, R151). -/
def Obligations.InvariantKept : Prop :=
  ∀ s t : State, Invariant s → step s = .next t → Invariant t

/-- An instruction writes only the registers the table of 10_state.md R10 gives it. -/
def Obligations.RegisterFrame : Prop :=
  ∀ (i : Instr) (r : Reg) (s t : State), exec i s = .next t → mayWrite s.quirks r i = false → t.getV r = s.getV r

/-- Only LD B and LD [I] change memory; after any other instruction every byte reads as before (20_memory.md R35, R41). -/
def Obligations.MemoryFrame : Prop :=
  ∀ (i : Instr) (s t : State), exec i s = .next t → (∀ x, i ≠ .ldB x ∧ i ≠ .storeRegs x) →
    t.mem = s.mem ∧ ∀ a, t.readByte a = s.readByte a

/-- Only CALL writes a stack entry, only CALL and RET move `sp` (10_state.md R14, 40_step_control.md R77). -/
def Obligations.StackFrame : Prop :=
  ∀ (i : Instr) (s t : State), exec i s = .next t → (∀ nnn, i ≠ .call nnn) →
    t.stack = s.stack ∧ (i ≠ .ret → t.sp = s.sp)

/-- No instruction writes the keypad latch or the quirk configuration (10_state.md R16, R21), nor the model's own font and
host's order; only LD DT and LD ST write a timer (R15); only CLS and DRW change a pixel (R18), only DRW under `Q_WAIT_FRAME` the
frame-ready flag (R19); only the index instructions and block transfers under `Q_INC_I` write `I` (R13). -/
def Obligations.ControlStateFrame : Prop :=
  ∀ (i : Instr) (s t : State), exec i s = .next t →
    t.key = s.key ∧ t.quirks = s.quirks ∧ t.font = s.font ∧ t.schedule = s.schedule ∧
    t.hostOrder = s.hostOrder ∧
    ((∀ x, i ≠ .ldDtVx x) → t.dt = s.dt) ∧ ((∀ x, i ≠ .ldStVx x) → t.st = s.st) ∧
    (i ≠ .cls → (∀ x y n, i ≠ .drw x y n) → t.fb = s.fb) ∧
    (s.quirks.waitFrame = false ∨ (∀ x y n, i ≠ .drw x y n) → t.frameReady = s.frameReady) ∧
    ((∀ nnn, i ≠ .ldI nnn) → (∀ x, i ≠ .addI x ∧ i ≠ .ldF x) →
      (s.quirks.incI = false ∨ ∀ x, i ≠ .storeRegs x ∧ i ≠ .loadRegs x) → t.idx = s.idx)

/-- Every instruction emits at most one event, and which: CLS and DRW the framebuffer as it then is (R134), SYS and UNKNOWN
their diagnostic (R164), every other instruction nothing. -/
def Obligations.OutputsOfInstructions : Prop :=
  ∀ (i : Instr) (s t : State), exec i s = .next t → t.out = s.out ∨
    (t.out = .fbChanged t.fb.snapshot :: s.out ∧ (i = .cls ∨ ∃ x y n, i = .drw x y n)) ∨
    (∃ nnn, i = .sys nnn ∧ t.out = .diag .sys (encode i) :: s.out) ∨
    (∃ w, i = .unknown w ∧ t.out = .diag .unknown w :: s.out)

/-- No instruction reads the sound timer (10_state.md R15): two states that differ in `ST` alone run alike, and differ in `ST`
alone afterwards. -/
def Obligations.SoundTimerUnread : Prop :=
  ∀ (i : Instr) (s t : State) (b : Byte), exec i s = .next t →
    ∃ u, exec i { s with st := b } = .next u ∧ { u with st := t.st } = t

/-- What was emitted has no effect on the core (00_scope.md R4, 44_display.md R134): a step from a state that differs in the
emitted events alone answers the same but for them. The list of emitted events is the model's own field (log 4). -/
def Obligations.OutputsUnread : Prop :=
  ∀ (s t : State) (o : List OutEvent), step s = .next t →
    ∃ u, step { s with out := o } = .next u ∧ { u with out := t.out } = t

/-- A finished program stays where it is: every further `step` leaves every field of the core unchanged (70_reset_and_hazards.md R188,
a convention of the spec, decision D24; R75); only the event is taken off the host's order, the model's own (log 2). -/
def Obligations.FinishedStays : Prop :=
  ∀ s : State, Finished s → s.stepIsNext = true → step s = .next s.consume
end

