-- ==== Sys2Proof/Laws/Memory.lean ====
section
/-! SUPPORT. What a read answers after a write, and that every memory operation keeps the canonical form. -/

namespace Sys2Proof.Machine

theorem Memory.lookup_erase_same (m : Memory) (a : Nat) : (Memory.erase m a).lookup a = none := by
  induction m with
  | nil => rfl
  | cons c rest ih =>
    unfold Memory.erase at ih ⊢
    by_cases h : c.1 = a
    · simpa [List.filter_cons, h] using ih
    · have h' : (a == c.1) = false := by simpa using fun e => h e.symm
      simpa [List.filter_cons, h, List.lookup, h'] using ih

theorem Memory.lookup_erase_ne (m : Memory) {a k : Nat} (hk : k ≠ a) : (Memory.erase m a).lookup k = m.lookup k := by
  induction m with
  | nil => rfl
  | cons c rest ih =>
    unfold Memory.erase at ih ⊢
    by_cases h : c.1 = a
    · have h' : (k == a) = false := by simpa using hk
      simpa [List.filter_cons, h, List.lookup, h'] using ih
    · by_cases hc : (k == c.1) = true
      · simp [h, List.lookup, hc]
      · simp only [Bool.not_eq_true] at hc
        simpa [List.filter_cons, h, List.lookup, hc] using ih

theorem Memory.lookup_insert_same (m : Memory) (a : Nat) (b : Byte) (h : m.lookup a = none) :
    (Memory.insert a b m).lookup a = some b := by
  induction m with
  | nil => simp [Memory.insert]
  | cons c rest ih =>
    by_cases hc : (a == c.1) = true
    · simp [List.lookup, hc] at h
    · simp only [Bool.not_eq_true] at hc
      simp only [List.lookup, hc] at h
      by_cases hlt : a < c.1
      · simp [Memory.insert, hlt]
      · simpa [Memory.insert, hlt, List.lookup, hc] using ih h

theorem Memory.lookup_insert_ne (m : Memory) {a k : Nat} (b : Byte) (hk : k ≠ a) :
    (Memory.insert a b m).lookup k = m.lookup k := by
  have hka : (k == a) = false := by simpa using hk
  induction m with
  | nil => simp [Memory.insert, List.lookup, hka]
  | cons c rest ih =>
    by_cases hlt : a < c.1
    · simp [Memory.insert, hlt, List.lookup, hka]
    · by_cases hc : (k == c.1) = true
      · simp [Memory.insert, hlt, List.lookup, hc]
      · simp only [Bool.not_eq_true] at hc
        simpa [Memory.insert, hlt, List.lookup, hc] using ih

/-- A read after a write to the same address gives the byte written, whatever the memory. -/
@[simp] theorem Memory.read_write_same (font : Font) (m : Memory) (a : Nat) (b : Byte) :
    Memory.read font (Memory.write font m a b) a = b := by
  unfold Memory.read Memory.write
  by_cases h : b = Memory.blank font a
  · simp [h, Memory.lookup_erase_same]
  · simp [h, Memory.lookup_insert_same _ _ _ (Memory.lookup_erase_same m a)]

/-- A write leaves every other address alone. -/
theorem Memory.read_write_ne (font : Font) (m : Memory) {a k : Nat} (b : Byte) (hk : k ≠ a) :
    Memory.read font (Memory.write font m a b) k = Memory.read font m k := by
  unfold Memory.read Memory.write
  by_cases h : b = Memory.blank font a
  · simp [h, Memory.lookup_erase_ne m hk]
  · simp [h, Memory.lookup_insert_ne _ _ hk, Memory.lookup_erase_ne m hk]

/-- What a read answers after bytes are stored from `a` up. -/
theorem Memory.read_writeList (font : Font) (m : Memory) (a k : Nat) (bs : List Byte) :
    Memory.read font (Memory.writeList font m a bs) k =
      if h : a ≤ k ∧ k < a + bs.length then bs[k - a]'(by omega) else Memory.read font m k := by
  induction bs generalizing m a with
  | nil =>
    have : ¬ (a ≤ k ∧ k < a + ([] : List Byte).length) := by simp
    simp [Memory.writeList]
  | cons b bs ih =>
    rw [Memory.writeList, ih]
    by_cases hk : k = a
    · subst hk
      have h1 : ¬ (k + 1 ≤ k ∧ k < k + 1 + bs.length) := by omega
      simp [Memory.read_write_same]
    · by_cases h : a + 1 ≤ k ∧ k < a + 1 + bs.length
      · have h2 : a ≤ k ∧ k < a + (b :: bs).length := by simp; omega
        obtain ⟨j, rfl⟩ : ∃ j, k = a + 1 + j := ⟨k - (a + 1), by omega⟩
        rw [dif_pos h, dif_pos h2]
        simp [show a + 1 + j - a = j + 1 by omega]
      · have h2 : ¬ (a ≤ k ∧ k < a + (b :: bs).length) := by simp; omega
        rw [dif_neg h, dif_neg h2, Memory.read_write_ne font m b hk]

theorem State.readByte_storeBytes (s : State) (a k : Nat) (bs : List Byte) :
    (s.storeBytes a bs).readByte k = if h : a ≤ k ∧ k < a + bs.length then bs[k - a]'(by omega) else s.readByte k :=
  Memory.read_writeList s.font s.mem a k bs

/-- Bytes outside a store keep their value. -/
theorem State.readByte_storeBytes_out (s : State) {a k : Nat} (bs : List Byte) (h : k < a ∨ a + bs.length ≤ k) :
    (s.storeBytes a bs).readByte k = s.readByte k := by
  rw [State.readByte_storeBytes, dif_neg (by omega)]

/-! ### The canonical form -/

theorem Memory.wf_nil (font : Font) : Memory.wf font [] := ⟨List.Pairwise.nil, by simp⟩

theorem Memory.erase_wf (font : Font) (m : Memory) (a : Nat) (h : Memory.wf font m) : Memory.wf font (Memory.erase m a) :=
  ⟨h.1.filter _, fun c hc => h.2 c (List.mem_filter.mp hc).1⟩

theorem Memory.mem_insert {a : Nat} {b : Byte} {m : Memory} {c : Host.Cell} :
    c ∈ Memory.insert a b m ↔ c = (a, b) ∨ c ∈ m := by
  induction m with
  | nil => simp [Memory.insert]
  | cons d rest ih =>
    by_cases hlt : a < d.1
    · simp [Memory.insert, hlt]
    · simp only [Memory.insert, hlt, if_false, List.mem_cons, ih]
      tauto

theorem Memory.insert_rising {a : Nat} {b : Byte} {m : Memory} (hm : m.Pairwise (fun c d => c.1 < d.1))
    (ha : ∀ c ∈ m, c.1 ≠ a) : (Memory.insert a b m).Pairwise (fun c d => c.1 < d.1) := by
  induction m with
  | nil => simp [Memory.insert]
  | cons d rest ih =>
    rw [List.pairwise_cons] at hm
    have hd : d.1 ≠ a := ha d (by simp)
    by_cases hlt : a < d.1
    · simp only [Memory.insert, hlt, if_true]
      refine List.pairwise_cons.mpr ⟨fun c hc => ?_, List.pairwise_cons.mpr hm⟩
      rcases List.mem_cons.mp hc with rfl | hc
      · exact hlt
      · exact lt_trans hlt (hm.1 c hc)
    · simp only [Memory.insert, hlt, if_false]
      refine List.pairwise_cons.mpr ⟨fun c hc => ?_, ih hm.2 fun c hc => ha c (by simp [hc])⟩
      rcases Memory.mem_insert.mp hc with rfl | hc
      · show d.1 < a
        omega
      · exact hm.1 c hc

/-- A write inside memory keeps the canonical form. -/
theorem Memory.write_wf (font : Font) (m : Memory) {a : Nat} (b : Byte) (ha : a < Config.memSize) (h : Memory.wf font m) :
    Memory.wf font (Memory.write font m a b) := by
  unfold Memory.write
  have he := Memory.erase_wf font m a h
  split
  · exact he
  · rename_i hb
    refine ⟨Memory.insert_rising he.1 ?_, fun c hc => ?_⟩
    · intro c hc e
      have := (List.mem_filter.mp hc).2
      simp [e] at this
    · rcases Memory.mem_insert.mp hc with rfl | hc
      · exact ⟨ha, hb⟩
      · exact he.2 c hc

theorem Memory.writeList_wf (font : Font) (m : Memory) (a : Nat) (bs : List Byte) (ha : a + bs.length ≤ Config.memSize)
    (h : Memory.wf font m) : Memory.wf font (Memory.writeList font m a bs) := by
  induction bs generalizing m a with
  | nil => exact h
  | cons b bs ih =>
    simp only [List.length_cons] at ha
    exact ih _ _ (by omega) (Memory.write_wf font m b (by omega) h)

end Sys2Proof.Machine
end

