-- ==== Sys2Proof/Laws/State.lean ====
section
/-! SUPPORT. One lemma per field per update of the state, so that no proof unfolds a record update. -/

namespace Sys2Proof.Machine

/-! ### `setV` -/

@[simp] theorem State.setV_v (s : State) (r : Reg) (b : Byte) : (s.setV r b).v = s.v.set r.val b := rfl
@[simp] theorem State.setV_pc (s : State) (r : Reg) (b : Byte) : (s.setV r b).pc = s.pc := rfl
@[simp] theorem State.setV_idx (s : State) (r : Reg) (b : Byte) : (s.setV r b).idx = s.idx := rfl
@[simp] theorem State.setV_sp (s : State) (r : Reg) (b : Byte) : (s.setV r b).sp = s.sp := rfl
@[simp] theorem State.setV_stack (s : State) (r : Reg) (b : Byte) : (s.setV r b).stack = s.stack := rfl
@[simp] theorem State.setV_dt (s : State) (r : Reg) (b : Byte) : (s.setV r b).dt = s.dt := rfl
@[simp] theorem State.setV_st (s : State) (r : Reg) (b : Byte) : (s.setV r b).st = s.st := rfl
@[simp] theorem State.setV_key (s : State) (r : Reg) (b : Byte) : (s.setV r b).key = s.key := rfl
@[simp] theorem State.setV_mem (s : State) (r : Reg) (b : Byte) : (s.setV r b).mem = s.mem := rfl
@[simp] theorem State.setV_fb (s : State) (r : Reg) (b : Byte) : (s.setV r b).fb = s.fb := rfl
@[simp] theorem State.setV_frameReady (s : State) (r : Reg) (b : Byte) : (s.setV r b).frameReady = s.frameReady := rfl
@[simp] theorem State.setV_fault (s : State) (r : Reg) (b : Byte) : (s.setV r b).fault = s.fault := rfl
@[simp] theorem State.setV_quirks (s : State) (r : Reg) (b : Byte) : (s.setV r b).quirks = s.quirks := rfl
@[simp] theorem State.setV_font (s : State) (r : Reg) (b : Byte) : (s.setV r b).font = s.font := rfl
@[simp] theorem State.setV_randDraws (s : State) (r : Reg) (b : Byte) : (s.setV r b).randDraws = s.randDraws := rfl
@[simp] theorem State.setV_out (s : State) (r : Reg) (b : Byte) : (s.setV r b).out = s.out := rfl
@[simp] theorem State.setV_schedule (s : State) (r : Reg) (b : Byte) : (s.setV r b).schedule = s.schedule := rfl
@[simp] theorem State.setV_hostOrder (s : State) (r : Reg) (b : Byte) : (s.setV r b).hostOrder = s.hostOrder := rfl

/-! ### `setVF` -/

@[simp] theorem State.setVF_v (s : State) (b : Byte) : (s.setVF b).v = s.v.set 15 b := rfl
@[simp] theorem State.setVF_pc (s : State) (b : Byte) : (s.setVF b).pc = s.pc := rfl
@[simp] theorem State.setVF_idx (s : State) (b : Byte) : (s.setVF b).idx = s.idx := rfl
@[simp] theorem State.setVF_sp (s : State) (b : Byte) : (s.setVF b).sp = s.sp := rfl
@[simp] theorem State.setVF_stack (s : State) (b : Byte) : (s.setVF b).stack = s.stack := rfl
@[simp] theorem State.setVF_dt (s : State) (b : Byte) : (s.setVF b).dt = s.dt := rfl
@[simp] theorem State.setVF_st (s : State) (b : Byte) : (s.setVF b).st = s.st := rfl
@[simp] theorem State.setVF_key (s : State) (b : Byte) : (s.setVF b).key = s.key := rfl
@[simp] theorem State.setVF_mem (s : State) (b : Byte) : (s.setVF b).mem = s.mem := rfl
@[simp] theorem State.setVF_fb (s : State) (b : Byte) : (s.setVF b).fb = s.fb := rfl
@[simp] theorem State.setVF_frameReady (s : State) (b : Byte) : (s.setVF b).frameReady = s.frameReady := rfl
@[simp] theorem State.setVF_fault (s : State) (b : Byte) : (s.setVF b).fault = s.fault := rfl
@[simp] theorem State.setVF_quirks (s : State) (b : Byte) : (s.setVF b).quirks = s.quirks := rfl
@[simp] theorem State.setVF_font (s : State) (b : Byte) : (s.setVF b).font = s.font := rfl
@[simp] theorem State.setVF_randDraws (s : State) (b : Byte) : (s.setVF b).randDraws = s.randDraws := rfl
@[simp] theorem State.setVF_out (s : State) (b : Byte) : (s.setVF b).out = s.out := rfl
@[simp] theorem State.setVF_schedule (s : State) (b : Byte) : (s.setVF b).schedule = s.schedule := rfl
@[simp] theorem State.setVF_hostOrder (s : State) (b : Byte) : (s.setVF b).hostOrder = s.hostOrder := rfl

/-! ### `setWithFlag` -/

@[simp] theorem State.setWithFlag_v (s : State) (x : Reg) (b : Byte) (f : Bool) : (s.setWithFlag x b f).v = (s.v.set x.val b).set 15 (flagByte f) := rfl
@[simp] theorem State.setWithFlag_pc (s : State) (x : Reg) (b : Byte) (f : Bool) : (s.setWithFlag x b f).pc = s.pc := rfl
@[simp] theorem State.setWithFlag_idx (s : State) (x : Reg) (b : Byte) (f : Bool) : (s.setWithFlag x b f).idx = s.idx := rfl
@[simp] theorem State.setWithFlag_sp (s : State) (x : Reg) (b : Byte) (f : Bool) : (s.setWithFlag x b f).sp = s.sp := rfl
@[simp] theorem State.setWithFlag_stack (s : State) (x : Reg) (b : Byte) (f : Bool) : (s.setWithFlag x b f).stack = s.stack := rfl
@[simp] theorem State.setWithFlag_dt (s : State) (x : Reg) (b : Byte) (f : Bool) : (s.setWithFlag x b f).dt = s.dt := rfl
@[simp] theorem State.setWithFlag_st (s : State) (x : Reg) (b : Byte) (f : Bool) : (s.setWithFlag x b f).st = s.st := rfl
@[simp] theorem State.setWithFlag_key (s : State) (x : Reg) (b : Byte) (f : Bool) : (s.setWithFlag x b f).key = s.key := rfl
@[simp] theorem State.setWithFlag_mem (s : State) (x : Reg) (b : Byte) (f : Bool) : (s.setWithFlag x b f).mem = s.mem := rfl
@[simp] theorem State.setWithFlag_fb (s : State) (x : Reg) (b : Byte) (f : Bool) : (s.setWithFlag x b f).fb = s.fb := rfl
@[simp] theorem State.setWithFlag_frameReady (s : State) (x : Reg) (b : Byte) (f : Bool) : (s.setWithFlag x b f).frameReady = s.frameReady := rfl
@[simp] theorem State.setWithFlag_fault (s : State) (x : Reg) (b : Byte) (f : Bool) : (s.setWithFlag x b f).fault = s.fault := rfl
@[simp] theorem State.setWithFlag_quirks (s : State) (x : Reg) (b : Byte) (f : Bool) : (s.setWithFlag x b f).quirks = s.quirks := rfl
@[simp] theorem State.setWithFlag_font (s : State) (x : Reg) (b : Byte) (f : Bool) : (s.setWithFlag x b f).font = s.font := rfl
@[simp] theorem State.setWithFlag_randDraws (s : State) (x : Reg) (b : Byte) (f : Bool) : (s.setWithFlag x b f).randDraws = s.randDraws := rfl
@[simp] theorem State.setWithFlag_out (s : State) (x : Reg) (b : Byte) (f : Bool) : (s.setWithFlag x b f).out = s.out := rfl
@[simp] theorem State.setWithFlag_schedule (s : State) (x : Reg) (b : Byte) (f : Bool) : (s.setWithFlag x b f).schedule = s.schedule := rfl
@[simp] theorem State.setWithFlag_hostOrder (s : State) (x : Reg) (b : Byte) (f : Bool) : (s.setWithFlag x b f).hostOrder = s.hostOrder := rfl

/-! ### `storeBytes` -/

@[simp] theorem State.storeBytes_v (s : State) (a : Nat) (bs : List Byte) : (s.storeBytes a bs).v = s.v := rfl
@[simp] theorem State.storeBytes_pc (s : State) (a : Nat) (bs : List Byte) : (s.storeBytes a bs).pc = s.pc := rfl
@[simp] theorem State.storeBytes_idx (s : State) (a : Nat) (bs : List Byte) : (s.storeBytes a bs).idx = s.idx := rfl
@[simp] theorem State.storeBytes_sp (s : State) (a : Nat) (bs : List Byte) : (s.storeBytes a bs).sp = s.sp := rfl
@[simp] theorem State.storeBytes_stack (s : State) (a : Nat) (bs : List Byte) : (s.storeBytes a bs).stack = s.stack := rfl
@[simp] theorem State.storeBytes_dt (s : State) (a : Nat) (bs : List Byte) : (s.storeBytes a bs).dt = s.dt := rfl
@[simp] theorem State.storeBytes_st (s : State) (a : Nat) (bs : List Byte) : (s.storeBytes a bs).st = s.st := rfl
@[simp] theorem State.storeBytes_key (s : State) (a : Nat) (bs : List Byte) : (s.storeBytes a bs).key = s.key := rfl
@[simp] theorem State.storeBytes_mem (s : State) (a : Nat) (bs : List Byte) : (s.storeBytes a bs).mem = Memory.writeList s.font s.mem a bs := rfl
@[simp] theorem State.storeBytes_fb (s : State) (a : Nat) (bs : List Byte) : (s.storeBytes a bs).fb = s.fb := rfl
@[simp] theorem State.storeBytes_frameReady (s : State) (a : Nat) (bs : List Byte) : (s.storeBytes a bs).frameReady = s.frameReady := rfl
@[simp] theorem State.storeBytes_fault (s : State) (a : Nat) (bs : List Byte) : (s.storeBytes a bs).fault = s.fault := rfl
@[simp] theorem State.storeBytes_quirks (s : State) (a : Nat) (bs : List Byte) : (s.storeBytes a bs).quirks = s.quirks := rfl
@[simp] theorem State.storeBytes_font (s : State) (a : Nat) (bs : List Byte) : (s.storeBytes a bs).font = s.font := rfl
@[simp] theorem State.storeBytes_randDraws (s : State) (a : Nat) (bs : List Byte) : (s.storeBytes a bs).randDraws = s.randDraws := rfl
@[simp] theorem State.storeBytes_out (s : State) (a : Nat) (bs : List Byte) : (s.storeBytes a bs).out = s.out := rfl
@[simp] theorem State.storeBytes_schedule (s : State) (a : Nat) (bs : List Byte) : (s.storeBytes a bs).schedule = s.schedule := rfl
@[simp] theorem State.storeBytes_hostOrder (s : State) (a : Nat) (bs : List Byte) : (s.storeBytes a bs).hostOrder = s.hostOrder := rfl

/-! ### `rewind` -/

@[simp] theorem State.rewind_v (s : State) : s.rewind.v = s.v := rfl
@[simp] theorem State.rewind_pc (s : State) : s.rewind.pc = s.pc - 2 := rfl
@[simp] theorem State.rewind_idx (s : State) : s.rewind.idx = s.idx := rfl
@[simp] theorem State.rewind_sp (s : State) : s.rewind.sp = s.sp := rfl
@[simp] theorem State.rewind_stack (s : State) : s.rewind.stack = s.stack := rfl
@[simp] theorem State.rewind_dt (s : State) : s.rewind.dt = s.dt := rfl
@[simp] theorem State.rewind_st (s : State) : s.rewind.st = s.st := rfl
@[simp] theorem State.rewind_key (s : State) : s.rewind.key = s.key := rfl
@[simp] theorem State.rewind_mem (s : State) : s.rewind.mem = s.mem := rfl
@[simp] theorem State.rewind_fb (s : State) : s.rewind.fb = s.fb := rfl
@[simp] theorem State.rewind_frameReady (s : State) : s.rewind.frameReady = s.frameReady := rfl
@[simp] theorem State.rewind_fault (s : State) : s.rewind.fault = s.fault := rfl
@[simp] theorem State.rewind_quirks (s : State) : s.rewind.quirks = s.quirks := rfl
@[simp] theorem State.rewind_font (s : State) : s.rewind.font = s.font := rfl
@[simp] theorem State.rewind_randDraws (s : State) : s.rewind.randDraws = s.randDraws := rfl
@[simp] theorem State.rewind_out (s : State) : s.rewind.out = s.out := rfl
@[simp] theorem State.rewind_schedule (s : State) : s.rewind.schedule = s.schedule := rfl
@[simp] theorem State.rewind_hostOrder (s : State) : s.rewind.hostOrder = s.hostOrder := rfl

/-! ### `advance` -/

@[simp] theorem State.advance_v (s : State) : s.advance.v = s.v := rfl
@[simp] theorem State.advance_pc (s : State) : s.advance.pc = s.pc + 2 := rfl
@[simp] theorem State.advance_idx (s : State) : s.advance.idx = s.idx := rfl
@[simp] theorem State.advance_sp (s : State) : s.advance.sp = s.sp := rfl
@[simp] theorem State.advance_stack (s : State) : s.advance.stack = s.stack := rfl
@[simp] theorem State.advance_dt (s : State) : s.advance.dt = s.dt := rfl
@[simp] theorem State.advance_st (s : State) : s.advance.st = s.st := rfl
@[simp] theorem State.advance_key (s : State) : s.advance.key = s.key := rfl
@[simp] theorem State.advance_mem (s : State) : s.advance.mem = s.mem := rfl
@[simp] theorem State.advance_fb (s : State) : s.advance.fb = s.fb := rfl
@[simp] theorem State.advance_frameReady (s : State) : s.advance.frameReady = s.frameReady := rfl
@[simp] theorem State.advance_fault (s : State) : s.advance.fault = s.fault := rfl
@[simp] theorem State.advance_quirks (s : State) : s.advance.quirks = s.quirks := rfl
@[simp] theorem State.advance_font (s : State) : s.advance.font = s.font := rfl
@[simp] theorem State.advance_randDraws (s : State) : s.advance.randDraws = s.randDraws := rfl
@[simp] theorem State.advance_out (s : State) : s.advance.out = s.out := rfl
@[simp] theorem State.advance_schedule (s : State) : s.advance.schedule = s.schedule := rfl
@[simp] theorem State.advance_hostOrder (s : State) : s.advance.hostOrder = s.hostOrder := rfl

/-! ### `emit` -/

@[simp] theorem State.emit_v (s : State) (e : OutEvent) : (s.emit e).v = s.v := rfl
@[simp] theorem State.emit_pc (s : State) (e : OutEvent) : (s.emit e).pc = s.pc := rfl
@[simp] theorem State.emit_idx (s : State) (e : OutEvent) : (s.emit e).idx = s.idx := rfl
@[simp] theorem State.emit_sp (s : State) (e : OutEvent) : (s.emit e).sp = s.sp := rfl
@[simp] theorem State.emit_stack (s : State) (e : OutEvent) : (s.emit e).stack = s.stack := rfl
@[simp] theorem State.emit_dt (s : State) (e : OutEvent) : (s.emit e).dt = s.dt := rfl
@[simp] theorem State.emit_st (s : State) (e : OutEvent) : (s.emit e).st = s.st := rfl
@[simp] theorem State.emit_key (s : State) (e : OutEvent) : (s.emit e).key = s.key := rfl
@[simp] theorem State.emit_mem (s : State) (e : OutEvent) : (s.emit e).mem = s.mem := rfl
@[simp] theorem State.emit_fb (s : State) (e : OutEvent) : (s.emit e).fb = s.fb := rfl
@[simp] theorem State.emit_frameReady (s : State) (e : OutEvent) : (s.emit e).frameReady = s.frameReady := rfl
@[simp] theorem State.emit_fault (s : State) (e : OutEvent) : (s.emit e).fault = s.fault := rfl
@[simp] theorem State.emit_quirks (s : State) (e : OutEvent) : (s.emit e).quirks = s.quirks := rfl
@[simp] theorem State.emit_font (s : State) (e : OutEvent) : (s.emit e).font = s.font := rfl
@[simp] theorem State.emit_randDraws (s : State) (e : OutEvent) : (s.emit e).randDraws = s.randDraws := rfl
@[simp] theorem State.emit_out (s : State) (e : OutEvent) : (s.emit e).out = e :: s.out := rfl
@[simp] theorem State.emit_schedule (s : State) (e : OutEvent) : (s.emit e).schedule = s.schedule := rfl
@[simp] theorem State.emit_hostOrder (s : State) (e : OutEvent) : (s.emit e).hostOrder = s.hostOrder := rfl

/-! ### `drawRand` -/

@[simp] theorem State.drawRand_v (s : State) : s.drawRand.2.v = s.v := rfl
@[simp] theorem State.drawRand_pc (s : State) : s.drawRand.2.pc = s.pc := rfl
@[simp] theorem State.drawRand_idx (s : State) : s.drawRand.2.idx = s.idx := rfl
@[simp] theorem State.drawRand_sp (s : State) : s.drawRand.2.sp = s.sp := rfl
@[simp] theorem State.drawRand_stack (s : State) : s.drawRand.2.stack = s.stack := rfl
@[simp] theorem State.drawRand_dt (s : State) : s.drawRand.2.dt = s.dt := rfl
@[simp] theorem State.drawRand_st (s : State) : s.drawRand.2.st = s.st := rfl
@[simp] theorem State.drawRand_key (s : State) : s.drawRand.2.key = s.key := rfl
@[simp] theorem State.drawRand_mem (s : State) : s.drawRand.2.mem = s.mem := rfl
@[simp] theorem State.drawRand_fb (s : State) : s.drawRand.2.fb = s.fb := rfl
@[simp] theorem State.drawRand_frameReady (s : State) : s.drawRand.2.frameReady = s.frameReady := rfl
@[simp] theorem State.drawRand_fault (s : State) : s.drawRand.2.fault = s.fault := rfl
@[simp] theorem State.drawRand_quirks (s : State) : s.drawRand.2.quirks = s.quirks := rfl
@[simp] theorem State.drawRand_font (s : State) : s.drawRand.2.font = s.font := rfl
@[simp] theorem State.drawRand_randDraws (s : State) : s.drawRand.2.randDraws = s.randDraws + 1 := rfl
@[simp] theorem State.drawRand_out (s : State) : s.drawRand.2.out = s.out := rfl
@[simp] theorem State.drawRand_schedule (s : State) : s.drawRand.2.schedule = s.schedule := rfl
@[simp] theorem State.drawRand_hostOrder (s : State) : s.drawRand.2.hostOrder = s.hostOrder := rfl

/-! ### `consume` -/

@[simp] theorem State.consume_v (s : State) : s.consume.v = s.v := rfl
@[simp] theorem State.consume_pc (s : State) : s.consume.pc = s.pc := rfl
@[simp] theorem State.consume_idx (s : State) : s.consume.idx = s.idx := rfl
@[simp] theorem State.consume_sp (s : State) : s.consume.sp = s.sp := rfl
@[simp] theorem State.consume_stack (s : State) : s.consume.stack = s.stack := rfl
@[simp] theorem State.consume_dt (s : State) : s.consume.dt = s.dt := rfl
@[simp] theorem State.consume_st (s : State) : s.consume.st = s.st := rfl
@[simp] theorem State.consume_key (s : State) : s.consume.key = s.key := rfl
@[simp] theorem State.consume_mem (s : State) : s.consume.mem = s.mem := rfl
@[simp] theorem State.consume_fb (s : State) : s.consume.fb = s.fb := rfl
@[simp] theorem State.consume_frameReady (s : State) : s.consume.frameReady = s.frameReady := rfl
@[simp] theorem State.consume_fault (s : State) : s.consume.fault = s.fault := rfl
@[simp] theorem State.consume_quirks (s : State) : s.consume.quirks = s.quirks := rfl
@[simp] theorem State.consume_font (s : State) : s.consume.font = s.font := rfl
@[simp] theorem State.consume_randDraws (s : State) : s.consume.randDraws = s.randDraws := rfl
@[simp] theorem State.consume_out (s : State) : s.consume.out = s.out := rfl
@[simp] theorem State.consume_schedule (s : State) : s.consume.schedule = s.schedule.tail := rfl
@[simp] theorem State.consume_hostOrder (s : State) : s.consume.hostOrder = s.restOrder := rfl

/-! ### Reading a register after a write -/

theorem State.getV_setV (s : State) (x r : Reg) (b : Byte) : (s.setV x b).getV r = if r = x then b else s.getV r := by
  have h : (x.val = r.val) = (r = x) := by rw [Fin.ext_iff]; exact propext eq_comm
  simp [State.getV, Vector.getElem_set, h]

@[simp] theorem State.getV_setV_same (s : State) (x : Reg) (b : Byte) : (s.setV x b).getV x = b := by
  simp [State.getV_setV]

theorem State.getV_setV_ne (s : State) {x r : Reg} (b : Byte) (h : r ≠ x) : (s.setV x b).getV r = s.getV r := by
  simp [State.getV_setV, h]

theorem State.getV_setVF (s : State) (r : Reg) (b : Byte) : (s.setVF b).getV r = if r = 15 then b else s.getV r :=
  State.getV_setV s 15 r b

/-- R101: the flag is written last. -/
theorem State.getV_setWithFlag (s : State) (x r : Reg) (b : Byte) (f : Bool) :
    (s.setWithFlag x b f).getV r = if r = 15 then flagByte f else if r = x then b else s.getV r := by
  simp [State.setWithFlag, State.getV_setVF, State.getV_setV]

theorem State.getV_setLogic (s : State) (x r : Reg) (b : Byte) :
    (s.setLogic x b).getV r = if s.quirks.logicResetsVf ∧ r = 15 then 0 else if r = x then b else s.getV r := by
  unfold State.setLogic
  by_cases h : s.quirks.logicResetsVf <;> simp [h, State.getV_setVF, State.getV_setV]

/-- Writing registers changes no other field. -/
theorem State.setV_frame (s : State) (x : Reg) (b : Byte) : s.setV x b = { s with v := (s.setV x b).v } := rfl

theorem State.setWithFlag_frame (s : State) (x : Reg) (b : Byte) (f : Bool) :
    s.setWithFlag x b f = { s with v := (s.setWithFlag x b f).v } := rfl

theorem State.setLogic_frame (s : State) (x : Reg) (b : Byte) : s.setLogic x b = { s with v := (s.setLogic x b).v } := by
  unfold State.setLogic
  split <;> rfl

/-! ### Registers under updates that leave them alone -/

@[simp] theorem State.getV_storeBytes (s : State) (a : Nat) (bs : List Byte) (r : Reg) :
    (s.storeBytes a bs).getV r = s.getV r := rfl
@[simp] theorem State.getV_rewind (s : State) (r : Reg) : s.rewind.getV r = s.getV r := rfl
@[simp] theorem State.getV_advance (s : State) (r : Reg) : s.advance.getV r = s.getV r := rfl
@[simp] theorem State.getV_consume (s : State) (r : Reg) : s.consume.getV r = s.getV r := rfl
@[simp] theorem State.getV_emit (s : State) (e : OutEvent) (r : Reg) : (s.emit e).getV r = s.getV r := rfl

/-- The fetch advance undone (40_step_control.md R71, 60_exceptions.md R151). -/
@[simp] theorem State.rewind_advance (s : State) : s.advance.rewind = s := by
  simp [State.rewind, State.advance]

end Sys2Proof.Machine
end

