-- ==== Sys2Proof/Laws/Ops.lean ====
section
/-! SUPPORT. One lemma per shared operation that says what it can do; the proofs about the meanings cite these. -/

namespace Sys2Proof.Machine

/-! ### Taking a fault, stalls, skips -/

/-- A raised fault changes `pc` (back to the instruction) and the report, and nothing else (60_exceptions.md R151). -/
theorem raise_eq (code : FaultCode) (addr : Word) (s : State) :
    raise code addr s = .next { s with pc := s.pc - 2, fault := ⟨code, addr⟩ } := rfl

theorem takeFault_eq (f : FaultReport) (s : State) : takeFault f s = .next { s with fault := f } := rfl

theorem stall_eq (s : State) : stall s = .next { s with pc := s.pc - 2 } := rfl

theorem skipIf_eq (c : Bool) (s : State) : skipIf c s = .next { s with pc := if c then s.pc + 2 else s.pc } := by
  cases c <;> rfl

/-! ### The range check -/

theorem State.inRange_iff (s : State) (m : Nat) : s.inRange m = true ↔ s.idx.toNat + m ≤ 0xFFF := by
  simp [State.inRange]

theorem withRange_of_le {m : Nat} {s : State} (go : State → Outcome) (h : s.idx.toNat + m ≤ 0xFFF) :
    withRange m s go = go s := by
  simp [withRange, (s.inRange_iff m).mpr h]

theorem withRange_of_gt {m : Nat} {s : State} (go : State → Outcome) (h : 0xFFF < s.idx.toNat + m) :
    withRange m s go = raise .memRange s.rangeAddr s := by
  have : s.inRange m = false := by simpa [State.inRange] using h
  simp [withRange, this]

/-! ### The call stack -/

theorem State.push_of_lt {s : State} (h : s.sp.val < 16) :
    s.push = some { s with stack := s.stack.set s.sp.val s.pc, sp := ⟨s.sp.val + 1, by omega⟩ } := by
  simp [State.push, h]

theorem State.push_eq_none {s : State} : s.push = none ↔ s.sp = 16 := by
  have := s.sp.isLt
  simp only [State.push]
  split
  · rename_i h
    simp only [Config.stackDepth] at h
    simp only [reduceCtorEq, false_iff]
    intro e
    simp [e] at h
  · rename_i h
    simp only [Config.stackDepth] at h
    simp only [true_iff]
    exact Fin.ext (by omega)

theorem State.pop_of_pos {s : State} (h : 0 < s.sp.val) :
    s.pop = some { s with sp := ⟨s.sp.val - 1, by omega⟩, pc := s.stack[s.sp.val - 1]'(by omega) } := by
  simp only [State.pop, dif_pos h]

theorem State.pop_eq_none {s : State} : s.pop = none ↔ s.sp = 0 := by
  unfold State.pop
  split
  · rename_i h
    simp only [reduceCtorEq, false_iff]
    intro e
    simp [e] at h
  · rename_i h
    simp only [true_iff]
    exact Fin.ext (by simpa using h)

/-! ### Fetch -/

theorem fetch_of_le {s : State} (h : s.pc.toNat ≤ 0xFFE) :
    fetch s = .ok (wordOfBytes (s.readByte s.pc.toNat) (s.readByte (s.pc.toNat + 1))) := by
  simp [fetch, Nat.not_lt.mpr h]

theorem fetch_of_gt {s : State} (h : 0xFFE < s.pc.toNat) : fetch s = .error ⟨.fetchRange, s.pc⟩ := by
  simp [fetch, h]

/-! ### Block transfers and digits -/

/-- A block load replaces the registers it names and no other (43_index_memory.md R125). -/
theorem fillRegs_getElem (read : Nat → Byte) (base n : Nat) (v : Vector Byte 16) (j : Nat) (hj : j < 16) :
    (fillRegs read base n v)[j] = if j < n then read (base + j) else v[j] := by
  induction n with
  | zero => simp [fillRegs]
  | succ n ih =>
    simp only [fillRegs, Vector.getElem_setIfInBounds]
    by_cases h : n = j
    · simp [h]
    · have h1 : j < n + 1 ↔ j < n := by omega
      simp [h, ih, h1]

@[simp] theorem bcdDigits_length (b : Byte) : (bcdDigits b).length = 3 := rfl

@[simp] theorem regsUpTo_length (s : State) (x : Reg) : (regsUpTo s x).length = x.val + 1 := by
  have := x.isLt
  simp [regsUpTo]

theorem regsUpTo_getElem (s : State) (x : Reg) (j : Nat) (h : j < (regsUpTo s x).length) :
    (regsUpTo s x)[j] = s.v[j]'(by have := x.isLt; simp at h; omega) := by
  simp [regsUpTo]

/-- The glyph address is exact: no byte makes it wrap (43_index_memory.md R122). -/
theorem toNat_glyphAddr (b : Byte) : (glyphAddr b).toNat = 0x50 + 5 * b.toNat := by
  have := b.isLt
  simp only [glyphAddr, Config.fontBase, BitVec.toNat_ofNat]
  omega

/-! ### The keypad -/

/-- The key R145 picks is down and no smaller one is. -/
theorem lowestKey_eq_some {s : State} {k : Fin 16} :
    lowestKey s = some k ↔ s.keyDown k = true ∧ ∀ j, j < k → s.keyDown j = false := by
  simp only [lowestKey, List.find?_eq_some_iff_getElem, List.getElem_finRange, List.length_finRange]
  constructor
  · rintro ⟨hk, i, hi, e, hlt⟩
    refine ⟨hk, fun j hj => ?_⟩
    have hik : i = k.val := by simpa using congrArg Fin.val e
    have := hlt j.val (by rw [hik]; exact hj)
    simpa using this
  · rintro ⟨hk, hlt⟩
    exact ⟨hk, k.val, k.isLt, by simp, fun j hj => by simpa using hlt ⟨j, by omega⟩ (by simpa [Fin.lt_def] using hj)⟩

theorem lowestKey_eq_none {s : State} : lowestKey s = none ↔ ∀ k, s.keyDown k = false := by
  simp [lowestKey, List.find?_eq_none]

end Sys2Proof.Machine
end

