-- ==== Sys2Proof/Laws/Display.lean ====
section
/-! SUPPORT. What the framebuffer operations do to one pixel (44_display.md R130 to R132). -/

namespace Sys2Proof.Machine

/-- Flipping changes exactly its pixel. -/
theorem Framebuffer.pixel_flip (fb : Framebuffer) (r r' : Fin 32) (c c' : Fin 64) :
    (fb.flip r c).pixel r' c' = (fb.pixel r' c' ^^ (decide (r = r') && decide (c = c'))) := by
  unfold Framebuffer.flip Framebuffer.pixel
  by_cases hr : r = r'
  · subst hr
    have hc := c.isLt
    have hc' := c'.isLt
    have : (63 - c.val = 63 - c'.val) ↔ c = c' := by rw [Fin.ext_iff]; omega
    simp [BitVec.getMsbD, BitVec.getLsbD_xor, BitVec.getLsbD_twoPow, hc', this]
    omega
  · have : r.val ≠ r'.val := fun e => hr (Fin.ext e)
    simp [this, hr]

theorem Framebuffer.pixel_flip_ne_iff (fb : Framebuffer) (r r' : Fin 32) (c c' : Fin 64) :
    (fb.flip r c).pixel r' c' ≠ fb.pixel r' c' ↔ r = r' ∧ c = c' := by
  rw [Framebuffer.pixel_flip]
  by_cases h : r = r' ∧ c = c'
  · simp [h.1, h.2]
  · have : (decide (r = r') && decide (c = c')) = false := by simpa using h
    simp [this]
    tauto

/-- Two framebuffers with the same pixels are the same. -/
theorem Framebuffer.ext_pixel {a b : Framebuffer} (h : ∀ r c, Framebuffer.pixel a r c = Framebuffer.pixel b r c) : a = b := by
  apply Vector.ext
  intro i hi
  apply BitVec.eq_of_getMsbD_eq
  intro j hj
  exact h ⟨i, hi⟩ ⟨j, hj⟩

@[simp] theorem Framebuffer.pixel_clear (r : Fin 32) (c : Fin 64) : Framebuffer.clear.pixel r c = false := by
  simp [Framebuffer.clear, Framebuffer.pixel, BitVec.getMsbD]

/-- Where a position lands (R132): as it stands, or dropped or wrapped past the edge. -/
theorem place_eq_some {clip : Bool} {size pos : Nat} [NeZero size] {p : Fin size} (hp : pos < 2 * size) :
    place clip size pos = some p ↔ if clip then pos = p.val else pos % size = p.val := by
  have := p.isLt
  unfold place
  by_cases h1 : pos < size
  · cases clip <;> simp [h1, Fin.ext_iff, Nat.mod_eq_of_lt h1]
  · have h2 : pos % size = pos - size := by
      rw [Nat.mod_eq_sub_mod (by omega), Nat.mod_eq_of_lt (by omega)]
    cases clip
    · simp [h1, Fin.ext_iff, h2, Nat.mod_eq_of_lt (show pos - size < size by omega)]
    · simp [h1]
      omega

/-- Does sprite column `j` of a row byte flip column `c` (R131, R132)? -/
def HitsCol (clip : Bool) (cx : Nat) (b : Byte) (j : Nat) (c : Fin 64) : Prop :=
  b.getLsbD (7 - j) = true ∧ place clip 64 (cx + j) = some c

theorem HitsCol.unique {clip : Bool} {cx : Nat} {b : Byte} {i j : Nat} {c : Fin 64} (hcx : cx < 64) (hi : i < 8) (hj : j < 8)
    (h1 : HitsCol clip cx b i c) (h2 : HitsCol clip cx b j c) : i = j := by
  have e1 := (place_eq_some (by omega)).mp h1.2
  have e2 := (place_eq_some (by omega)).mp h2.2
  cases clip <;> simp at e1 e2 <;> omega

theorem drawBit_pixel (clip : Bool) (row : Fin 32) (cx : Nat) (b : Byte) (d : Drawing) (j : Nat) (r : Fin 32) (c : Fin 64) :
    (drawBit clip row cx b d j).1.pixel r c ≠ d.1.pixel r c ↔ row = r ∧ HitsCol clip cx b j c := by
  unfold drawBit HitsCol
  cases hp : place clip 64 (cx + j) with
  | none => simp
  | some col =>
    by_cases hb : b.getLsbD (7 - j) = true
    · simp only [hb, if_true, Framebuffer.pixel_flip_ne_iff, Option.some.injEq, true_and]
    · simp [hb]

theorem drawBit_hit (clip : Bool) (row : Fin 32) (cx : Nat) (b : Byte) (d : Drawing) (j : Nat) :
    (drawBit clip row cx b d j).2 = true ↔ d.2 = true ∨ ∃ c, HitsCol clip cx b j c ∧ d.1.pixel row c = true := by
  unfold drawBit HitsCol
  cases hp : place clip 64 (cx + j) with
  | none => simp
  | some col =>
    by_cases hb : b.getLsbD (7 - j) = true
    · simp [hb]
    · simp [hb]

/-- Two changes of a bit that never both happen. -/
theorem bool_change_trans {a b c : Bool} {P Q : Prop} (h1 : b ≠ a ↔ P) (h2 : c ≠ b ↔ Q) (h : ¬ (P ∧ Q)) :
    c ≠ a ↔ P ∨ Q := by
  rw [← h1, ← h2] at *
  cases a <;> cases b <;> cases c <;> simp at *

/-- The columns drawn so far: which pixels changed, and whether a lit one did. -/
theorem foldl_drawBit (clip : Bool) (row : Fin 32) (cx : Nat) (b : Byte) (hcx : cx < 64) (d : Drawing) (L : List Nat)
    (hL : L.Nodup) (hlt : ∀ j ∈ L, j < 8) :
    (∀ r c, (L.foldl (drawBit clip row cx b) d).1.pixel r c ≠ d.1.pixel r c ↔
      row = r ∧ ∃ j ∈ L, HitsCol clip cx b j c) ∧
    ((L.foldl (drawBit clip row cx b) d).2 = true ↔
      d.2 = true ∨ ∃ j ∈ L, ∃ c, HitsCol clip cx b j c ∧ d.1.pixel row c = true) := by
  induction L generalizing d with
  | nil => simp
  | cons j L ih =>
    rw [List.nodup_cons] at hL
    have hj : j < 8 := hlt j (by simp)
    obtain ⟨ih1, ih2⟩ := ih (drawBit clip row cx b d j) hL.2 fun i hi => hlt i (by simp [hi])
    rw [List.foldl_cons]
    constructor
    · intro r c
      rw [bool_change_trans (drawBit_pixel clip row cx b d j r c) (ih1 r c)]
      · simp only [List.mem_cons, exists_eq_or_imp]
        tauto
      · rintro ⟨⟨-, h1⟩, -, i, hi, h2⟩
        exact hL.1 (HitsCol.unique hcx (hlt i (by simp [hi])) hj h2 h1 ▸ hi)
    · rw [ih2, drawBit_hit]
      simp only [List.mem_cons, exists_eq_or_imp]
      have key : ∀ i ∈ L, ∀ c, HitsCol clip cx b i c →
          ((drawBit clip row cx b d j).1.pixel row c = d.1.pixel row c) := by
        intro i hi c hc
        by_contra hne
        have := ((drawBit_pixel clip row cx b d j row c).mp hne).2
        exact hL.1 (HitsCol.unique hcx (hlt i (by simp [hi])) hj hc this ▸ hi)
      constructor
      · rintro ((h | h) | ⟨i, hi, c, hc, hp⟩)
        · exact .inl h
        · exact .inr (.inl h)
        · exact .inr (.inr ⟨i, hi, c, hc, by rw [← key i hi c hc]; exact hp⟩)
      · rintro (h | h | ⟨i, hi, c, hc, hp⟩)
        · exact .inl (.inl h)
        · exact .inl (.inr h)
        · exact .inr ⟨i, hi, c, hc, by rw [key i hi c hc]; exact hp⟩

/-- One sprite row (R131, R132): which pixels change, and whether a lit one does. -/
theorem drawRow_spec (clip : Bool) (row : Fin 32) (cx : Nat) (b : Byte) (hcx : cx < 64) (d : Drawing) :
    (∀ r c, (drawRow clip row cx b d).1.pixel r c ≠ d.1.pixel r c ↔ row = r ∧ ∃ j < 8, HitsCol clip cx b j c) ∧
    ((drawRow clip row cx b d).2 = true ↔
      d.2 = true ∨ ∃ j < 8, ∃ c, HitsCol clip cx b j c ∧ d.1.pixel row c = true) := by
  have h := foldl_drawBit clip row cx b hcx d (List.range 8) List.nodup_range (by simp)
  simpa [drawRow] using h

/-- One row byte at a screen position (R132). -/
theorem drawAt_spec (clip : Bool) (cx pos : Nat) (b : Byte) (hcx : cx < 64) (d : Drawing) :
    (∀ r c, (drawAt clip cx pos b d).1.pixel r c ≠ d.1.pixel r c ↔
      place clip 32 pos = some r ∧ ∃ j < 8, HitsCol clip cx b j c) ∧
    ((drawAt clip cx pos b d).2 = true ↔ d.2 = true ∨ ∃ r c,
      (place clip 32 pos = some r ∧ ∃ j < 8, HitsCol clip cx b j c) ∧ d.1.pixel r c = true) := by
  unfold drawAt
  cases hp : place clip 32 pos with
  | none => simp
  | some row =>
    obtain ⟨h1, h2⟩ := drawRow_spec clip row cx b hcx d
    refine ⟨fun r c => by simpa using h1 r c, h2.trans ⟨?_, ?_⟩⟩
    · rintro (h | ⟨j, hj, c, hc, hx⟩)
      · exact .inl h
      · exact .inr ⟨row, c, ⟨rfl, j, hj, hc⟩, hx⟩
    · rintro (h | ⟨r, c, ⟨e, j, hj, hc⟩, hx⟩)
      · exact .inl h
      · cases e
        exact .inr ⟨j, hj, c, hc, hx⟩

/-- Does row `i` of a sprite drawn from screen position `pos` flip the pixel (R132)? -/
def HitsPixel (clip : Bool) (cx pos : Nat) (bs : List Byte) (r : Fin 32) (c : Fin 64) : Prop :=
  ∃ i, ∃ h : i < bs.length, place clip 32 (pos + i) = some r ∧ ∃ j < 8, HitsCol clip cx bs[i] j c

theorem HitsPixel_cons (clip : Bool) (cx pos : Nat) (b : Byte) (bs : List Byte) (r : Fin 32) (c : Fin 64) :
    HitsPixel clip cx pos (b :: bs) r c ↔
      (place clip 32 pos = some r ∧ ∃ j < 8, HitsCol clip cx b j c) ∨ HitsPixel clip cx (pos + 1) bs r c := by
  unfold HitsPixel
  constructor
  · rintro ⟨i, hi, h⟩
    cases i with
    | zero => exact .inl h
    | succ i =>
      refine .inr ⟨i, by simpa using hi, ?_⟩
      simpa [Nat.add_assoc, Nat.add_comm 1 i] using h
  · rintro (h | ⟨i, hi, h⟩)
    · exact ⟨0, by simp, h⟩
    · exact ⟨i + 1, by simpa using hi, by simpa [Nat.add_assoc, Nat.add_comm 1 i] using h⟩

/-- A whole sprite (R132): which pixels change, and whether a lit one does. A wrapped sprite never overlaps itself. -/
theorem drawSprite_spec (clip : Bool) (cx : Nat) (hcx : cx < 64) (bs : List Byte) (pos : Nat) (d : Drawing)
    (hpos : pos + bs.length ≤ 64) (hlen : bs.length ≤ 32) :
    (∀ r c, (drawSprite clip cx pos bs d).1.pixel r c ≠ d.1.pixel r c ↔ HitsPixel clip cx pos bs r c) ∧
    ((drawSprite clip cx pos bs d).2 = true ↔
      d.2 = true ∨ ∃ r c, HitsPixel clip cx pos bs r c ∧ d.1.pixel r c = true) := by
  induction bs generalizing pos d with
  | nil => simp [drawSprite, HitsPixel]
  | cons b bs ih =>
    simp only [List.length_cons] at hpos hlen
    rw [drawSprite]
    obtain ⟨f1, f2⟩ := drawAt_spec clip cx pos b hcx d
    obtain ⟨ih1, ih2⟩ := ih (pos + 1) (drawAt clip cx pos b d) (by omega) (by omega)
    have apart : ∀ r c, ¬ ((place clip 32 pos = some r ∧ ∃ j < 8, HitsCol clip cx b j c) ∧
        HitsPixel clip cx (pos + 1) bs r c) := by
      rintro r c ⟨⟨h1, -⟩, i, hi, h2, -⟩
      have e1 := (place_eq_some (by omega)).mp h1
      have e2 := (place_eq_some (by omega)).mp h2
      cases clip <;> simp at e1 e2 <;> omega
    constructor
    · intro r c
      rw [bool_change_trans (f1 r c) (ih1 r c) (apart r c), HitsPixel_cons]
    · rw [ih2, f2]
      have key : ∀ r c, HitsPixel clip cx (pos + 1) bs r c → (drawAt clip cx pos b d).1.pixel r c = d.1.pixel r c := by
        intro r c h
        by_contra hne
        exact apart r c ⟨(f1 r c).mp hne, h⟩
      constructor
      · rintro ((h | ⟨r, c, h, hx⟩) | ⟨r, c, h, hx⟩)
        · exact .inl h
        · exact .inr ⟨r, c, (HitsPixel_cons ..).mpr (.inl h), hx⟩
        · exact .inr ⟨r, c, (HitsPixel_cons ..).mpr (.inr h), by rw [← key r c h]; exact hx⟩
      · rintro (h | ⟨r, c, h, hx⟩)
        · exact .inl (.inl h)
        · rcases (HitsPixel_cons ..).mp h with h | h
          · exact .inl (.inr ⟨r, c, h, hx⟩)
          · exact .inr ⟨r, c, h, by rw [key r c h]; exact hx⟩

/-- The port shows every row as eight bytes (R135). -/
@[simp] theorem rowBytes_length (row : BitVec 64) : (rowBytes row).length = 8 := by simp [rowBytes]

@[simp] theorem snapshot_length (fb : Framebuffer) : fb.snapshot.length = 256 := by
  simp [Framebuffer.snapshot, List.length_flatMap]

end Sys2Proof.Machine
end

