-- ==== Sys2Proof/Laws/Encoding.lean ====
section
/-! SUPPORT. The fields of an encoded word (30_encoding.md R51, R52), and the masks of the opcode map on it (R54). -/

namespace Sys2Proof

theorem toNat_formatA {op : Nat} (h : op < 16) (nnn : Addr12) : (formatA op nnn).toNat = op * 4096 + nnn.toNat := by
  have := nnn.isLt
  simp only [formatA, BitVec.toNat_ofNat]
  omega

theorem toNat_formatI {op : Nat} (h : op < 16) (x : Reg) (kk : Byte) :
    (formatI op x kk).toNat = op * 4096 + x.val * 256 + kk.toNat := by
  have := kk.isLt
  simp only [formatI, BitVec.toNat_ofNat]
  omega

theorem toNat_formatR {op : Nat} (h : op < 16) (x y : Reg) (low : Fin 16) :
    (formatR op x y low).toNat = op * 4096 + x.val * 256 + y.val * 16 + low.val := by
  simp only [formatR, BitVec.toNat_ofNat]
  omega

@[simp] theorem fieldOp_formatA {op : Nat} (h : op < 16) (nnn : Addr12) : fieldOp (formatA op nnn) = op := by
  have := nnn.isLt
  rw [fieldOp, toNat_formatA h]
  omega

@[simp] theorem fieldNNN_formatA {op : Nat} (h : op < 16) (nnn : Addr12) : fieldNNN (formatA op nnn) = nnn := by
  have := nnn.isLt
  apply BitVec.eq_of_toNat_eq
  rw [fieldNNN, BitVec.toNat_setWidth, toNat_formatA h]
  omega

@[simp] theorem fieldOp_formatI {op : Nat} (h : op < 16) (x : Reg) (kk : Byte) : fieldOp (formatI op x kk) = op := by
  have := kk.isLt
  rw [fieldOp, toNat_formatI h]
  omega

@[simp] theorem fieldX_formatI {op : Nat} (h : op < 16) (x : Reg) (kk : Byte) : fieldX (formatI op x kk) = x := by
  have := kk.isLt
  apply Fin.ext
  show (formatI op x kk).toNat / 256 % 16 = x.val
  rw [toNat_formatI h]
  omega

@[simp] theorem fieldKK_formatI {op : Nat} (h : op < 16) (x : Reg) (kk : Byte) : fieldKK (formatI op x kk) = kk := by
  have := kk.isLt
  apply BitVec.eq_of_toNat_eq
  rw [fieldKK, BitVec.toNat_setWidth, toNat_formatI h]
  omega

@[simp] theorem fieldOp_formatR {op : Nat} (h : op < 16) (x y : Reg) (low : Fin 16) :
    fieldOp (formatR op x y low) = op := by
  rw [fieldOp, toNat_formatR h]
  omega

@[simp] theorem fieldX_formatR {op : Nat} (h : op < 16) (x y : Reg) (low : Fin 16) :
    fieldX (formatR op x y low) = x := by
  apply Fin.ext
  show (formatR op x y low).toNat / 256 % 16 = x.val
  rw [toNat_formatR h]
  omega

@[simp] theorem fieldY_formatR {op : Nat} (h : op < 16) (x y : Reg) (low : Fin 16) :
    fieldY (formatR op x y low) = y := by
  apply Fin.ext
  show (formatR op x y low).toNat / 16 % 16 = y.val
  rw [toNat_formatR h]
  omega

@[simp] theorem fieldN_formatR {op : Nat} (h : op < 16) (x y : Reg) (low : Fin 16) :
    fieldN (formatR op x y low) = low := by
  apply Fin.ext
  show (formatR op x y low).toNat % 16 = low.val
  rw [toNat_formatR h]
  omega

/-! ### Masks: what `w and mask` leaves, in terms of the fields -/

/-- Mask 0xF000 keeps the family nibble. -/
theorem and_F000 (w : Word) : (w &&& (0xF000 : Word)).toNat = w.toNat / 4096 * 4096 := by
  have h : w &&& (0xF000 : Word) = (w >>> 12) <<< 12 := by
    apply BitVec.eq_of_getLsbD_eq
    intro i hi
    interval_cases i <;> simp
  have := w.isLt
  rw [h]
  simp only [BitVec.toNat_shiftLeft, BitVec.toNat_ushiftRight, Nat.shiftRight_eq_div_pow, Nat.shiftLeft_eq]
  omega

/-- Mask 0x000F keeps the low nibble. -/
theorem and_000F (w : Word) : (w &&& (0x000F : Word)).toNat = w.toNat % 16 := by
  have h : w &&& (0x000F : Word) = (w.setWidth 4).setWidth 16 := by
    apply BitVec.eq_of_getLsbD_eq
    intro i hi
    interval_cases i <;> simp
  rw [h]
  simp only [BitVec.toNat_setWidth]
  omega

/-- Mask 0x00FF keeps the low byte. -/
theorem and_00FF (w : Word) : (w &&& (0x00FF : Word)).toNat = w.toNat % 256 := by
  have h : w &&& (0x00FF : Word) = (w.setWidth 8).setWidth 16 := by
    apply BitVec.eq_of_getLsbD_eq
    intro i hi
    interval_cases i <;> simp
  rw [h]
  simp only [BitVec.toNat_setWidth]
  omega

/-- Mask 0xF00F keeps the family nibble and the low nibble. -/
theorem and_F00F (w : Word) : (w &&& (0xF00F : Word)).toNat = w.toNat / 4096 * 4096 + w.toNat % 16 := by
  have h : w &&& (0xF00F : Word) = (w &&& (0xF000 : Word)) + (w &&& (0x000F : Word)) := by
    rw [BitVec.add_eq_or_of_and_eq_zero]
    · apply BitVec.eq_of_getLsbD_eq
      intro i hi
      interval_cases i <;> simp
    · apply BitVec.eq_of_getLsbD_eq
      intro i hi
      interval_cases i <;> simp
  have := w.isLt
  rw [h, BitVec.toNat_add, and_F000, and_000F]
  omega

/-- Mask 0xF0FF keeps the family nibble and the low byte. -/
theorem and_F0FF (w : Word) : (w &&& (0xF0FF : Word)).toNat = w.toNat / 4096 * 4096 + w.toNat % 256 := by
  have h : w &&& (0xF0FF : Word) = (w &&& (0xF000 : Word)) + (w &&& (0x00FF : Word)) := by
    rw [BitVec.add_eq_or_of_and_eq_zero]
    · apply BitVec.eq_of_getLsbD_eq
      intro i hi
      interval_cases i <;> simp
    · apply BitVec.eq_of_getLsbD_eq
      intro i hi
      interval_cases i <;> simp
  have := w.isLt
  rw [h, BitVec.toNat_add, and_F000, and_00FF]
  omega

theorem matchesWord_F000 (w v : Word) : (OpcodeRow.mk 0xF000 v).matchesWord w = true ↔ w.toNat / 4096 * 4096 = v.toNat := by
  rw [OpcodeRow.matchesWord, beq_iff_eq, ← BitVec.toNat_inj, and_F000]

theorem matchesWord_F00F (w v : Word) :
    (OpcodeRow.mk 0xF00F v).matchesWord w = true ↔ w.toNat / 4096 * 4096 + w.toNat % 16 = v.toNat := by
  rw [OpcodeRow.matchesWord, beq_iff_eq, ← BitVec.toNat_inj, and_F00F]

theorem matchesWord_F0FF (w v : Word) :
    (OpcodeRow.mk 0xF0FF v).matchesWord w = true ↔ w.toNat / 4096 * 4096 + w.toNat % 256 = v.toNat := by
  rw [OpcodeRow.matchesWord, beq_iff_eq, ← BitVec.toNat_inj, and_F0FF]

theorem matchesWord_FFFF (w v : Word) : (OpcodeRow.mk 0xFFFF v).matchesWord w = true ↔ w = v := by
  have h : w &&& (0xFFFF : Word) = w := by
    apply BitVec.eq_of_getLsbD_eq
    intro i hi
    interval_cases i <;> simp
  rw [OpcodeRow.matchesWord, beq_iff_eq, h]

/-! ### A word of each format matches the row of its family and secondary opcode -/

theorem formatA_F000 {op : Nat} {v : Word} (h : op < 16) (hv : v.toNat = op * 4096) (nnn : Addr12) :
    (OpcodeRow.mk 0xF000 v).matchesWord (formatA op nnn) = true := by
  have := nnn.isLt
  rw [matchesWord_F000, toNat_formatA h]
  omega

theorem formatI_F000 {op : Nat} {v : Word} (h : op < 16) (hv : v.toNat = op * 4096) (x : Reg) (kk : Byte) :
    (OpcodeRow.mk 0xF000 v).matchesWord (formatI op x kk) = true := by
  have := kk.isLt
  rw [matchesWord_F000, toNat_formatI h]
  omega

theorem formatR_F000 {op : Nat} {v : Word} (h : op < 16) (hv : v.toNat = op * 4096) (x y : Reg) (n : Fin 16) :
    (OpcodeRow.mk 0xF000 v).matchesWord (formatR op x y n) = true := by
  rw [matchesWord_F000, toNat_formatR h]
  omega

theorem formatR_F00F {op : Nat} {v : Word} {low : Fin 16} (h : op < 16) (hv : v.toNat = op * 4096 + low.val) (x y : Reg) :
    (OpcodeRow.mk 0xF00F v).matchesWord (formatR op x y low) = true := by
  rw [matchesWord_F00F, toNat_formatR h]
  omega

theorem formatI_F0FF {op : Nat} {v : Word} {kk : Byte} (h : op < 16) (hv : v.toNat = op * 4096 + kk.toNat) (x : Reg) :
    (OpcodeRow.mk 0xF0FF v).matchesWord (formatI op x kk) = true := by
  have := kk.isLt
  rw [matchesWord_F0FF, toNat_formatI h]
  omega

/-! ### Every word laid out as memory holds it is that word again (20_memory.md R33) -/

/-- The fetch primitive puts the first byte in the high half (20_memory.md R33). -/
theorem toNat_wordOfBytes (high low : Byte) : (wordOfBytes high low).toNat = high.toNat * 256 + low.toNat := by
  rw [wordOfBytes, BitVec.toNat_append, ← Nat.shiftLeft_add_eq_or_of_lt low.isLt, Nat.shiftLeft_eq]

theorem wordOfBytes_bytesOfWord (w : Word) : wordOfBytes (w.extractLsb' 8 8) (w.extractLsb' 0 8) = w := by
  apply BitVec.eq_of_getLsbD_eq
  intro i hi
  simp only [wordOfBytes, BitVec.getLsbD_append, BitVec.getLsbD_extractLsb']
  split
  · rename_i h
    simp [h]
  · simp only [show i - 8 < 8 by omega, decide_true, Bool.true_and]
    congr 1
    omega

@[simp] theorem decode_bytesOfWord (w : Word) (rest : List Byte) :
    decode (bytesOfWord w ++ rest) = .ok (decodeWord w, rest) := by
  simp [bytesOfWord, decode, wordOfBytes_bytesOfWord]

end Sys2Proof
end

