-- ==== Sys2Proof/Laws/Exec.lean ====
section
/-! SUPPORT. What each meaning with more than one outcome can do, one lemma per meaning, and what `exec` does to the fault report;
the proofs about steps cite these. -/

namespace Sys2Proof.Machine

/-! ### Control transfer -/

theorem execRet_cases {s t : State} (h : execRet s = .next t) :
    (∃ hp : 0 < s.sp.val,
      t = { s with sp := ⟨s.sp.val - 1, by omega⟩, pc := s.stack[s.sp.val - 1]'(by omega) }) ∨
    (s.sp = 0 ∧ t = { s with pc := s.pc - 2, fault := ⟨.stackUnderflow, s.pc - 2⟩ }) := by
  by_cases hp : 0 < s.sp.val
  · rw [execRet, State.pop_of_pos hp] at h
    exact .inl ⟨hp, (Host.Outcome.next.inj h).symm⟩
  · have h0 : s.sp = 0 := Fin.ext (by simpa using hp)
    rw [execRet, State.pop_eq_none.mpr h0] at h
    exact .inr ⟨h0, (Host.Outcome.next.inj h).symm⟩

theorem execCall_cases {nnn : Addr12} {s t : State} (h : execCall nnn s = .next t) :
    (∃ hp : s.sp.val < 16,
      t = { s with stack := s.stack.set s.sp.val s.pc, sp := ⟨s.sp.val + 1, by omega⟩, pc := zext16 nnn }) ∨
    (s.sp = 16 ∧ t = { s with pc := s.pc - 2, fault := ⟨.stackOverflow, s.pc - 2⟩ }) := by
  by_cases hp : s.sp.val < 16
  · rw [execCall, State.push_of_lt hp] at h
    exact .inl ⟨hp, (Host.Outcome.next.inj h).symm⟩
  · have h0 : s.sp = 16 := Fin.ext (by simp; omega)
    rw [execCall, State.push_eq_none.mpr h0] at h
    exact .inr ⟨h0, (Host.Outcome.next.inj h).symm⟩

/-! ### Data access -/

theorem withRange_cases {m : Nat} {s t : State} {go : State → Outcome} (h : withRange m s go = .next t) :
    (s.idx.toNat + m ≤ 0xFFF ∧ go s = .next t) ∨
    (0xFFF < s.idx.toNat + m ∧ t = { s with pc := s.pc - 2, fault := ⟨.memRange, s.rangeAddr⟩ }) := by
  by_cases hr : s.idx.toNat + m ≤ 0xFFF
  · rw [withRange_of_le go hr] at h
    exact .inl ⟨hr, h⟩
  · rw [withRange_of_gt go (by omega)] at h
    exact .inr ⟨by omega, (Host.Outcome.next.inj h).symm⟩

theorem toNat_rangeAddr (s : State) : s.rangeAddr.toNat = max s.idx.toNat 0x1000 := by
  have := s.idx.isLt
  simp only [State.rangeAddr, BitVec.toNat_ofNat]
  omega

theorem execLdB_of_le (x : Reg) {s : State} (h : s.idx.toNat + 2 ≤ 0xFFF) :
    execLdB x s = .next (s.storeBytes s.idx.toNat (bcdDigits (s.getV x))) := withRange_of_le _ h

theorem execLdB_cases {x : Reg} {s t : State} (h : execLdB x s = .next t) :
    (s.idx.toNat + 2 ≤ 0xFFF ∧ t = s.storeBytes s.idx.toNat (bcdDigits (s.getV x))) ∨
    (0xFFF < s.idx.toNat + 2 ∧ t = { s with pc := s.pc - 2, fault := ⟨.memRange, s.rangeAddr⟩ }) :=
  (withRange_cases h).imp_left fun ⟨hr, e⟩ => ⟨hr, (Host.Outcome.next.inj e).symm⟩

theorem execStoreRegs_of_le {x : Reg} {s : State} (h : s.idx.toNat + x.val ≤ 0xFFF) :
    execStoreRegs x s = .next { s.storeBytes s.idx.toNat (regsUpTo s x) with idx := idxAfterBlock s x } :=
  withRange_of_le _ h

theorem execStoreRegs_cases {x : Reg} {s t : State} (h : execStoreRegs x s = .next t) :
    (s.idx.toNat + x.val ≤ 0xFFF ∧ t = { s.storeBytes s.idx.toNat (regsUpTo s x) with idx := idxAfterBlock s x }) ∨
    (0xFFF < s.idx.toNat + x.val ∧ t = { s with pc := s.pc - 2, fault := ⟨.memRange, s.rangeAddr⟩ }) :=
  (withRange_cases h).imp_left fun ⟨hr, e⟩ => ⟨hr, (Host.Outcome.next.inj e).symm⟩

theorem execLoadRegs_cases {x : Reg} {s t : State} (h : execLoadRegs x s = .next t) :
    (s.idx.toNat + x.val ≤ 0xFFF ∧
      t = { s with v := fillRegs s.readByte s.idx.toNat (x.val + 1) s.v, idx := idxAfterBlock s x }) ∨
    (0xFFF < s.idx.toNat + x.val ∧ t = { s with pc := s.pc - 2, fault := ⟨.memRange, s.rangeAddr⟩ }) :=
  (withRange_cases h).imp_left fun ⟨hr, e⟩ => ⟨hr, (Host.Outcome.next.inj e).symm⟩

/-- `I` after a block transfer that was in range: no wrap (43_index_memory.md R124). -/
theorem toNat_idxAfterBlock {s : State} {x : Reg} (h : s.idx.toNat + x.val ≤ 0xFFF) :
    (idxAfterBlock s x).toNat = if s.quirks.incI then s.idx.toNat + x.val + 1 else s.idx.toNat := by
  unfold idxAfterBlock
  split
  · simp only [BitVec.toNat_add, BitVec.toNat_ofNat]
    omega
  · rfl

/-! ### Draw and key wait -/

theorem execDrw_of_gate {x y : Reg} {n : Fin 16} {s : State} (h : frameGate s = true) : execDrw x y n s = stall s := by
  simp [execDrw, h]

theorem execDrw_of_range {x y : Reg} {n : Fin 16} {s : State} (hg : frameGate s = false)
    (hr : n.val = 0 ∨ s.idx.toNat + (n.val - 1) ≤ 0xFFF) : execDrw x y n s = .next (drawNow x y n.val s) := by
  unfold execDrw
  rw [if_neg (by simp [hg])]
  by_cases hn : n.val = 0
  · rw [if_pos hn, hn]
  · rw [if_neg hn, withRange_of_le _ (by tauto)]

theorem execDrw_cases {x y : Reg} {n : Fin 16} {s t : State} (h : execDrw x y n s = .next t) :
    (frameGate s = true ∧ t = { s with pc := s.pc - 2 }) ∨
    (frameGate s = false ∧ (n.val = 0 ∨ s.idx.toNat + (n.val - 1) ≤ 0xFFF) ∧ t = drawNow x y n.val s) ∨
    (frameGate s = false ∧ n.val ≠ 0 ∧ 0xFFF < s.idx.toNat + (n.val - 1) ∧
      t = { s with pc := s.pc - 2, fault := ⟨.memRange, s.rangeAddr⟩ }) := by
  by_cases hg : frameGate s = true
  · rw [execDrw_of_gate hg] at h
    exact .inl ⟨hg, (Host.Outcome.next.inj h).symm⟩
  · rw [Bool.not_eq_true] at hg
    by_cases hr : n.val = 0 ∨ s.idx.toNat + (n.val - 1) ≤ 0xFFF
    · rw [execDrw_of_range hg hr] at h
      exact .inr (.inl ⟨hg, hr, (Host.Outcome.next.inj h).symm⟩)
    · rw [not_or] at hr
      unfold execDrw at h
      rw [if_neg (by simp [hg]), if_neg hr.1, withRange_of_gt _ (by omega)] at h
      exact .inr (.inr ⟨hg, hr.1, by omega, (Host.Outcome.next.inj h).symm⟩)

/-- What a draw that goes ahead writes: registers, pixels, the frame flag, the port (R132). -/
theorem drawNow_frame (x y : Reg) (n : Nat) (s : State) :
    drawNow x y n s = { s with v := (drawNow x y n s).v, fb := (drawing x y n s).1,
                               frameReady := if s.quirks.waitFrame then false else s.frameReady,
                               out := .fbChanged (drawing x y n s).1.snapshot :: s.out } := rfl

theorem getV_drawNow (x y : Reg) (n : Nat) (s : State) (r : Reg) :
    (drawNow x y n s).getV r = if r = 15 then flagByte (drawing x y n s).2 else s.getV r :=
  State.getV_setVF _ r _

theorem execLdVxK_of_up (x : Reg) {s : State} (h : ∀ k, s.keyDown k = false) :
    execLdVxK x s = .next { s with pc := s.pc - 2 } := by
  rw [execLdVxK, lowestKey_eq_none.2 h]
  rfl

theorem execLdVxK_cases {x : Reg} {s t : State} (h : execLdVxK x s = .next t) :
    (lowestKey s = none ∧ t = { s with pc := s.pc - 2 }) ∨
    (∃ k, lowestKey s = some k ∧ t = s.setV x (BitVec.ofNat 8 k.val)) := by
  unfold execLdVxK at h
  split at h
  · rename_i hk
    exact .inl ⟨hk, (Host.Outcome.next.inj h).symm⟩
  · rename_i k hk
    exact .inr ⟨k, hk, (Host.Outcome.next.inj h).symm⟩

/-! ### All instructions -/

/-- Every meaning answers a next state (30_encoding.md R56, 60_exceptions.md R151). -/
theorem exec_next (i : Instr) (s : State) : ∃ t, exec i s = .next t := by
  cases i with
  | ret => simp only [exec, execRet]; split <;> exact ⟨_, rfl⟩
  | call nnn => simp only [exec, execCall]; split <;> exact ⟨_, rfl⟩
  | ldB x => simp only [exec, execLdB, withRange]; split <;> exact ⟨_, rfl⟩
  | storeRegs x => simp only [exec, execStoreRegs, withRange]; split <;> exact ⟨_, rfl⟩
  | loadRegs x => simp only [exec, execLoadRegs, withRange]; split <;> exact ⟨_, rfl⟩
  | drw x y n => simp only [exec, execDrw, withRange]; (repeat' split) <;> exact ⟨_, rfl⟩
  | ldVxK x => simp only [exec, execLdVxK]; split <;> exact ⟨_, rfl⟩
  | _ => exact ⟨_, rfl⟩

/-- Either an instruction leaves the fault report alone, or all it does is record a fault at its own address (R151). -/
theorem exec_fault_cases {i : Instr} {s t : State} (h : exec i s = .next t) :
    t.fault = s.fault ∨ t = { s with pc := s.pc - 2, fault := t.fault } := by
  cases i with
  | ret => rcases execRet_cases h with ⟨_, rfl⟩ | ⟨_, rfl⟩ <;> simp
  | call nnn => rcases execCall_cases h with ⟨_, rfl⟩ | ⟨_, rfl⟩ <;> simp
  | ldB x => rcases execLdB_cases h with ⟨_, rfl⟩ | ⟨_, rfl⟩ <;> simp
  | storeRegs x => rcases execStoreRegs_cases h with ⟨_, rfl⟩ | ⟨_, rfl⟩ <;> simp
  | loadRegs x => rcases execLoadRegs_cases h with ⟨_, rfl⟩ | ⟨_, rfl⟩ <;> simp
  | drw x y n =>
    rcases execDrw_cases h with ⟨_, rfl⟩ | ⟨_, _, rfl⟩ | ⟨_, _, _, rfl⟩
    · exact .inl rfl
    · exact .inl rfl
    · exact .inr rfl
  | ldVxK x =>
    rcases execLdVxK_cases h with ⟨_, rfl⟩ | ⟨_, _, rfl⟩ <;> exact .inl rfl
  | orReg x y | andReg x y | xorReg x y =>
    rw [← Host.Outcome.next.inj h, State.setLogic_frame]
    exact .inl rfl
  | seImm _ _ | sneImm _ _ | seReg _ _ | sneReg _ _ | skp _ | sknp _ =>
    simp only [exec, execSeImm, execSneImm, execSeReg, execSneReg, execSkp, execSknp, skipIf_eq] at h
    rw [← Host.Outcome.next.inj h]
    exact .inl rfl
  | _ =>
    rw [← Host.Outcome.next.inj h]
    exact .inl rfl

/-! ### Events -/

@[simp] theorem State.readByte_consume (s : State) (a : Nat) : s.consume.readByte a = s.readByte a := rfl

@[simp] theorem fetch_consume (s : State) : fetch s.consume = fetch s := rfl

theorem State.event_of_schedule {s : State} {e : Event} {rest : List Event} (h : s.schedule = e :: rest) :
    s.event = e ∧ s.consume = { s with schedule := rest } := by
  simp [State.event, State.consume, State.restOrder, h]

theorem State.event_of_order {s : State} (h : s.schedule = []) :
    s.event = s.hostOrder.first ∧ s.consume = { s with hostOrder := s.hostOrder.tail } := by
  cases s
  simp_all [State.event, State.consume, State.restOrder]

theorem State.stepIsNext_iff {s : State} : s.stepIsNext = true ↔ s.event = .step := by
  unfold State.stepIsNext
  split <;> simp_all

/-- One step is the next event, in the state without it (00_scope.md R2). -/
theorem step_of_event {s : State} {e : Event} (h : s.event = e) : step s = runEvent e s.consume := by
  rw [step, nextEvent, h]

/-- A step whose next event is `step` is the core's step event. -/
theorem step_of_stepIsNext {s : State} (h : s.stepIsNext = true) : step s = stepEvent s.consume :=
  step_of_event (State.stepIsNext_iff.1 h)

/-- A fetched word runs in the state after the fetch advance (40_step_control.md R70). -/
theorem step_of_fetch_ok {s : State} {w : Word} (h : s.stepIsNext = true) (nf : s.fault.code = .none) (hf : fetch s = .ok w) :
    step s = exec (decodeWord w) s.consume.advance := by
  rw [step_of_stepIsNext h, stepEvent]
  simp [nf, hf]

/-! ### A placed word -/

theorem tableWord_toNat (w : Word) : tableWord 16 w.toNat = some w := by
  have hw := w.isLt
  simp [tableWord, Nat.mod_eq_of_lt hw, hw]

theorem withFetchWord_toNat (s : State) (w : Word) : s.withFetchWord 16 w.toNat = placeWord s w := by
  simp [State.withFetchWord, tableWord_toNat]

theorem placeWord_pc_le (s : State) (w : Word) : (placeWord s w).pc.toNat ≤ 0xFFE := by
  simp only [placeWord, State.storeBytes_pc]
  split
  · decide
  · omega

theorem placeWord_noFault (s : State) (w : Word) : (placeWord s w).fault.code = .none := by
  simp only [placeWord, State.storeBytes_fault]
  split
  · assumption
  · rfl

theorem placeWord_stepIsNext (s : State) (w : Word) : (placeWord s w).stepIsNext = true := by
  by_cases h : s.stepIsNext = true
  · rw [State.stepIsNext_iff, ← State.stepIsNext_iff.1 h]
    simp [placeWord, State.event, h]
  · rw [State.stepIsNext_iff]
    simp [placeWord, State.event, h]

theorem fetch_placeWord (s : State) (w : Word) : fetch (placeWord s w) = .ok w := by
  rw [fetch_of_le (placeWord_pc_le s w)]
  conv_rhs => rw [← wordOfBytes_bytesOfWord w]
  simp only [placeWord, State.storeBytes_pc]
  rw [State.readByte_storeBytes, State.readByte_storeBytes]
  simp [bytesOfWord]

end Sys2Proof.Machine
end

