-- ==== Sys2Proof/Laws/Draw.lean ====
section
/-! SUPPORT. A draw in the terms of the statements: which pixels change and when there is a collision (44_display.md R132), and
where a byte of the snapshot comes from (R135). -/

namespace Sys2Proof.Machine

theorem frameGate_eq_false {s : State} : frameGate s = false ↔ ¬ (s.quirks.waitFrame = true ∧ s.frameReady = false) := by
  simp [frameGate]

/-- The pixels the draw loop hits are those the sprite covers. -/
theorem hitsPixel_iff_covers (x y : Reg) {n : Nat} (hn : n ≤ 15) (s : State) (row : Fin 32) (col : Fin 64) :
    HitsPixel s.quirks.clip (anchorCol s x) (anchorRow s y) (s.readBytes s.idx.toNat n) row col ↔
      Covers s x y n row col := by
  have h1 : anchorCol s x < 64 := Nat.mod_lt _ (by decide)
  have h2 : anchorRow s y < 32 := Nat.mod_lt _ (by decide)
  unfold HitsPixel Covers HitsCol
  rw [← show anchorCol s x = (s.getV x).toNat % 64 from rfl, ← show anchorRow s y = (s.getV y).toNat % 32 from rfl]
  generalize anchorCol s x = cx at h1 ⊢
  generalize anchorRow s y = cy at h2 ⊢
  simp only [State.readBytes, List.length_map, List.length_range, List.getElem_map, List.getElem_range]
  constructor
  · rintro ⟨i, hi, hp, j, hj, hb, hc⟩
    have e1 := (place_eq_some (by omega)).mp hp
    have e2 := (place_eq_some (by omega)).mp hc
    refine ⟨i, hi, j, hj, hb, ?_⟩
    cases hq : s.quirks.clip <;> simp only [hq, if_true, if_false, Bool.false_eq_true] at e1 e2 ⊢ <;> exact ⟨e1, e2⟩
  · rintro ⟨i, hi, j, hj, hb, h⟩
    refine ⟨i, hi, (place_eq_some (by omega)).mpr ?_, j, hj, hb, (place_eq_some (by omega)).mpr ?_⟩
    · cases hq : s.quirks.clip <;> simp only [hq, if_true, if_false, Bool.false_eq_true] at h ⊢ <;> exact h.1
    · cases hq : s.quirks.clip <;> simp only [hq, if_true, if_false, Bool.false_eq_true] at h ⊢ <;> exact h.2

/-- A draw flips exactly the covered pixels, and hits when one of them was lit. -/
theorem drawing_spec (x y : Reg) (n : Fin 16) (s : State) :
    (∀ row col, (drawing x y n.val s).1.pixel row col ≠ s.fb.pixel row col ↔ Covers s x y n.val row col) ∧
    ((drawing x y n.val s).2 = true ↔ ∃ row col, Covers s x y n.val row col ∧ s.fb.pixel row col = true) := by
  have h1 : anchorCol s x < 64 := Nat.mod_lt _ (by decide)
  have h2 : anchorRow s y < 32 := Nat.mod_lt _ (by decide)
  have hn : n.val ≤ 15 := by omega
  have hlen : (s.readBytes s.idx.toNat n.val).length = n.val := by simp [State.readBytes]
  obtain ⟨a, b⟩ := drawSprite_spec s.quirks.clip (anchorCol s x) h1 (s.readBytes s.idx.toNat n.val) (anchorRow s y)
    (s.fb, false) (by omega) (by omega)
  constructor
  · intro r c
    rw [← hitsPixel_iff_covers x y hn]
    exact a r c
  · unfold drawing
    rw [b]
    simp [hitsPixel_iff_covers x y hn]

theorem flatMap_rowBytes_getElem? (L : List (BitVec 64)) {i k : Nat} (hi : i < L.length) (hk : k < 8) :
    (L.flatMap rowBytes)[8 * i + k]? = (rowBytes L[i])[k]? := by
  induction L generalizing i with
  | nil => simp at hi
  | cons a L ih =>
    rw [List.flatMap_cons]
    cases i with
    | zero =>
      rw [List.getElem?_append_left (by simp; omega)]
      simp
    | succ i =>
      rw [List.getElem?_append_right (by simp; omega), rowBytes_length, show 8 * (i + 1) + k - 8 = 8 * i + k by omega]
      exact ih (by simpa using hi)

/-- Byte `8 * row + k` of the snapshot is byte `k` of the row (R135). -/
theorem snapshot_getElem? (fb : Framebuffer) (row : Fin 32) {k : Nat} (hk : k < 8) :
    fb.snapshot[8 * row.val + k]? = some (fb[row.val].extractLsb' (56 - 8 * k) 8) := by
  unfold Framebuffer.snapshot
  rw [flatMap_rowBytes_getElem? _ (by simp) hk]
  simp [rowBytes, List.getElem?_range hk]

end Sys2Proof.Machine
end

