-- ==== Sys2Proof/Laws/PerInstr.lean ====
section
/-! SUPPORT. Statements made per instruction. RowMatch: the word of an instruction matches its row of the opcode map
(30_encoding.md R54, R55). -/

namespace Sys2Proof.Laws.RowMatch

/-- The encoded word matches the mask and value of the instruction's own row. -/
def Statement (i : Instr) : Prop := i.row.matchesWord (encode i) = true

theorem cls : Statement (.cls) := (matchesWord_FFFF _ _).mpr rfl

theorem ret : Statement (.ret) := (matchesWord_FFFF _ _).mpr rfl

theorem jp (nnn : Addr12) : Statement (.jp nnn) := formatA_F000 (by decide) (by decide) nnn

theorem call (nnn : Addr12) : Statement (.call nnn) := formatA_F000 (by decide) (by decide) nnn

theorem seImm (x : Reg) (kk : Byte) : Statement (.seImm x kk) := formatI_F000 (by decide) (by decide) x kk

theorem sneImm (x : Reg) (kk : Byte) : Statement (.sneImm x kk) := formatI_F000 (by decide) (by decide) x kk

theorem seReg (x : Reg) (y : Reg) : Statement (.seReg x y) := formatR_F00F (by decide) (by decide) x y

theorem ldImm (x : Reg) (kk : Byte) : Statement (.ldImm x kk) := formatI_F000 (by decide) (by decide) x kk

theorem addImm (x : Reg) (kk : Byte) : Statement (.addImm x kk) := formatI_F000 (by decide) (by decide) x kk

theorem ldReg (x : Reg) (y : Reg) : Statement (.ldReg x y) := formatR_F00F (by decide) (by decide) x y

theorem orReg (x : Reg) (y : Reg) : Statement (.orReg x y) := formatR_F00F (by decide) (by decide) x y

theorem andReg (x : Reg) (y : Reg) : Statement (.andReg x y) := formatR_F00F (by decide) (by decide) x y

theorem xorReg (x : Reg) (y : Reg) : Statement (.xorReg x y) := formatR_F00F (by decide) (by decide) x y

theorem addReg (x : Reg) (y : Reg) : Statement (.addReg x y) := formatR_F00F (by decide) (by decide) x y

theorem subReg (x : Reg) (y : Reg) : Statement (.subReg x y) := formatR_F00F (by decide) (by decide) x y

theorem shr (x : Reg) (y : Reg) : Statement (.shr x y) := formatR_F00F (by decide) (by decide) x y

theorem subn (x : Reg) (y : Reg) : Statement (.subn x y) := formatR_F00F (by decide) (by decide) x y

theorem shl (x : Reg) (y : Reg) : Statement (.shl x y) := formatR_F00F (by decide) (by decide) x y

theorem sneReg (x : Reg) (y : Reg) : Statement (.sneReg x y) := formatR_F00F (by decide) (by decide) x y

theorem ldI (nnn : Addr12) : Statement (.ldI nnn) := formatA_F000 (by decide) (by decide) nnn

theorem jpV0 (nnn : Addr12) : Statement (.jpV0 nnn) := formatA_F000 (by decide) (by decide) nnn

theorem rnd (x : Reg) (kk : Byte) : Statement (.rnd x kk) := formatI_F000 (by decide) (by decide) x kk

theorem drw (x : Reg) (y : Reg) (n : Fin 16) : Statement (.drw x y n) := formatR_F000 (by decide) (by decide) x y n

theorem skp (x : Reg) : Statement (.skp x) := formatI_F0FF (by decide) (by decide) x

theorem sknp (x : Reg) : Statement (.sknp x) := formatI_F0FF (by decide) (by decide) x

theorem ldVxDt (x : Reg) : Statement (.ldVxDt x) := formatI_F0FF (by decide) (by decide) x

theorem ldVxK (x : Reg) : Statement (.ldVxK x) := formatI_F0FF (by decide) (by decide) x

theorem ldDtVx (x : Reg) : Statement (.ldDtVx x) := formatI_F0FF (by decide) (by decide) x

theorem ldStVx (x : Reg) : Statement (.ldStVx x) := formatI_F0FF (by decide) (by decide) x

theorem addI (x : Reg) : Statement (.addI x) := formatI_F0FF (by decide) (by decide) x

theorem ldF (x : Reg) : Statement (.ldF x) := formatI_F0FF (by decide) (by decide) x

theorem ldB (x : Reg) : Statement (.ldB x) := formatI_F0FF (by decide) (by decide) x

theorem storeRegs (x : Reg) : Statement (.storeRegs x) := formatI_F0FF (by decide) (by decide) x

theorem loadRegs (x : Reg) : Statement (.loadRegs x) := formatI_F0FF (by decide) (by decide) x

theorem sys (nnn : Addr12) : Statement (.sys nnn) := formatA_F000 (by decide) (by decide) nnn

theorem unknown (w : Word) : Statement (.unknown w) := by
  simp [Statement, Instr.row, OpcodeRow.matchesWord]

end Sys2Proof.Laws.RowMatch
end

