-- ==== Sys2Proof/Laws/Stored.lean ====
section
/-! SUPPORT. A store in the terms of the statements: what memory reads as after it (20_memory.md R35). -/

namespace Sys2Proof.Machine

theorem storedOver_in {before b : Nat → Byte} {a n k : Nat} (h : a ≤ k ∧ k < a + n) : storedOver before a n b k = b (k - a) :=
  if_pos h

theorem storedOver_out {before b : Nat → Byte} {a n k : Nat} (h : k < a ∨ a + n ≤ k) : storedOver before a n b k = before k :=
  if_neg (by omega)

/-- A store of a list puts its bytes over what memory read as. -/
theorem readByte_storeBytes_eq_storedOver (s : State) (a : Nat) (bs : List Byte) (b : Nat → Byte)
    (h : ∀ j (hj : j < bs.length), bs[j] = b j) (k : Nat) :
    (s.storeBytes a bs).readByte k = storedOver s.readByte a bs.length b k := by
  rw [State.readByte_storeBytes, storedOver]
  split
  · exact h _ _
  · rfl

end Sys2Proof.Machine
end

