-- ==== Sys2Proof/Tests/Slice0.lean ====
section
/-! SUPPORT. Tests: words written out from the encodings of 30_encoding.md R55, the vectors of spec/95_test_vectors.md (their ids
stand beside them), and a witness for each statement that has hypotheses. -/

namespace Sys2Proof.Tests

open Sys2Proof.Machine

/-! ## Well-formedness: the check refuses ill-formed terms -/

theorem test_wellFormed_refuses_sys : Instr.wellFormed (.sys 0x0E0) = false ∧ Instr.wellFormed (.sys 0x0EE) = false := by decide

theorem test_wellFormed_refuses_unknown :
    Instr.wellFormed (.unknown 0x00E0) = false ∧ Instr.wellFormed (.unknown 0x5120) = false ∧
    Instr.wellFormed (.unknown 0x8014) = false ∧ Instr.wellFormed (.unknown 0x801E) = false ∧
    Instr.wellFormed (.unknown 0x9120) = false ∧ Instr.wellFormed (.unknown 0xE19E) = false ∧
    Instr.wellFormed (.unknown 0xF165) = false ∧ Instr.wellFormed (.unknown 0x1000) = false := by decide

theorem test_wellFormed_accepts :
    Instr.wellFormed (.sys 0x0E1) = true ∧ Instr.wellFormed (.unknown 0x5121) = true ∧
    Instr.wellFormed (.unknown 0x800F) = true ∧ Instr.wellFormed (.unknown 0xE1FF) = true ∧
    Instr.wellFormed (.unknown 0xF1FF) = true := by decide

/-! ## Decoding: one word for every constructor, bit by bit from R55 -/

theorem test_decode_whole_words :
    decodeWord 0b0000000011100000 = .cls ∧ decodeWord 0b0000000011101110 = .ret := by decide

theorem test_decode_address_words :
    decodeWord 0b0000001000110100 = .sys 0x234 ∧ decodeWord 0b0001101010111100 = .jp 0xABC ∧
    decodeWord 0b0010001000001100 = .call 0x20C ∧ decodeWord 0b1010001100000001 = .ldI 0x301 ∧
    decodeWord 0b1011001100001111 = .jpV0 0x30F := by decide

theorem test_decode_immediate_words :
    decodeWord 0b0011000110000000 = .seImm 1 0x80 ∧ decodeWord 0b0100001000010001 = .sneImm 2 0x11 ∧
    decodeWord 0b0110111100001010 = .ldImm 15 0x0A ∧ decodeWord 0b0111000111111111 = .addImm 1 0xFF ∧
    decodeWord 0b1100001100001111 = .rnd 3 0x0F := by decide

theorem test_decode_register_words :
    decodeWord 0b0101001101000000 = .seReg 3 4 ∧ decodeWord 0b1001001101000000 = .sneReg 3 4 ∧
    decodeWord 0b1000000100100000 = .ldReg 1 2 ∧ decodeWord 0b1000000100100001 = .orReg 1 2 ∧
    decodeWord 0b1000000100100010 = .andReg 1 2 ∧ decodeWord 0b1000000100100011 = .xorReg 1 2 ∧
    decodeWord 0b1000000100100100 = .addReg 1 2 ∧ decodeWord 0b1000000100100101 = .subReg 1 2 ∧
    decodeWord 0b1000000100100110 = .shr 1 2 ∧ decodeWord 0b1000000100100111 = .subn 1 2 ∧
    decodeWord 0b1000000100101110 = .shl 1 2 := by decide

theorem test_decode_draw_word : decodeWord 0b1101000100101111 = .drw 1 2 15 := by decide

theorem test_decode_single_register_words :
    decodeWord 0b1110010110011110 = .skp 5 ∧ decodeWord 0b1110010110100001 = .sknp 5 ∧
    decodeWord 0b1111010100000111 = .ldVxDt 5 ∧ decodeWord 0b1111010100001010 = .ldVxK 5 ∧
    decodeWord 0b1111010100010101 = .ldDtVx 5 ∧ decodeWord 0b1111010100011000 = .ldStVx 5 ∧
    decodeWord 0b1111010100011110 = .addI 5 ∧ decodeWord 0b1111010100101001 = .ldF 5 ∧
    decodeWord 0b1111010100110011 = .ldB 5 ∧ decodeWord 0b1111010101010101 = .storeRegs 5 ∧
    decodeWord 0b1111010101100101 = .loadRegs 5 := by decide

/-- F11, F13: words beside a pattern. -/
theorem test_decode_unknown_words :
    decodeWord 0x00E1 = .sys 0x0E1 ∧ decodeWord 0x0000 = .sys 0 ∧ decodeWord 0x5121 = .unknown 0x5121 ∧
    decodeWord 0x8128 = .unknown 0x8128 ∧ decodeWord 0x9121 = .unknown 0x9121 ∧ decodeWord 0xE1FF = .unknown 0xE1FF ∧
    decodeWord 0xF1FF = .unknown 0xF1FF := by decide

/-- The byte order of the source's image `60 0A` (20_memory.md R33), and a lone byte rejected by name. -/
theorem test_decode_bytes :
    (decode [0x60, 0x0A, 0x61] matches .ok (.ldImm 0 0x0A, [0x61])) = true ∧
    (decode [0x60] matches .error .truncated) = true ∧ decodeTableWord 16 0x600A = some (.ldImm 0 0x0A) := by decide

/-! ## One step from a small state -/

/-- The reset state with registers, `I` and quirks of the test's own. -/
def start (regs : List (Fin 16 × Byte)) (idx : Word := 0) (q : Quirks := Config.defaultStraps) : State :=
  { regs.foldl (fun s p => s.setV p.1 p.2) State.reset with idx := idx, quirks := q }

/-- One step on a word placed where the machine fetches next. -/
def after (w : Nat) (s : State) : Option State :=
  match step (s.withFetchWord 16 w) with
  | .next t => some t
  | _ => none

/-- All straps false but those named (the conventions of 95_test_vectors.md hold `Q_CLIP` true). -/
def straps (logic shift jump wait inc : Bool) : Quirks := ⟨logic, shift, jump, true, wait, inc⟩

/-- F10, F12. -/
theorem test_noops :
    (after 0x0234 (start [])).map (fun t => (t.pc, t.out)) = some (0x202, [.diag .sys 0x0234]) ∧
    (after 0x5121 (start [(1, 1), (2, 1)])).map (fun t => (t.pc, t.out)) = some (0x202, [.diag .unknown 0x5121]) := by decide

/-- F1, F7, F8, F9. -/
theorem test_jumps :
    (after 0x1ABC (start [])).map (·.pc) = some 0xABC ∧
    (after 0xB300 (start [(0, 4), (3, 0x10)])).map (·.pc) = some 0x304 ∧
    (after 0xB300 (start [(0, 4), (3, 0x10)] 0 (straps false false true false false))).map (·.pc) = some 0x310 ∧
    (after 0xBFFF (start [(0, 0xFF)])).map (fun t => (t.pc, t.fault.code)) = some (0x10FE, .none) := by decide

/-- F3, F4. -/
theorem test_call_ret :
    (after 0x220C (start [])).map (fun t => (t.stack[0], t.sp, t.pc)) = some (0x202, 1, 0x20C) ∧
    (after 0x00EE { start [] with sp := 1, stack := (start []).stack.set 0 0x206 }).map (fun t => (t.sp, t.pc)) =
      some (0, 0x206) := by decide

/-- F5, and the full stack of F6. -/
theorem test_stack_faults :
    (after 0x00EE (start [])).map (fun t => (t.fault, t.pc)) = some (⟨.stackUnderflow, 0x200⟩, 0x200) ∧
    (after 0x2200 { start [] with sp := 16 }).map (fun t => (t.fault, t.pc, t.sp)) =
      some (⟨.stackOverflow, 0x200⟩, 0x200, 16) := by decide

/-- F14's last step: a fetch at 0x1000 (R36). -/
theorem test_fetch_fault :
    (match step { start [] with pc := 0x1000 } with
     | .next t => some (t.fault, t.pc)
     | _ => none) = some (⟨.fetchRange, 0x1000⟩, 0x1000) := by decide

/-- K1 to K8. -/
theorem test_skips :
    (after 0x3100 (start [])).map (·.pc) = some 0x204 ∧ (after 0x3100 (start [(1, 1)])).map (·.pc) = some 0x202 ∧
    (after 0x4211 (start [(2, 0x10)])).map (·.pc) = some 0x204 ∧ (after 0x4210 (start [(2, 0x10)])).map (·.pc) = some 0x202 ∧
    (after 0x5340 (start [(3, 0x7F), (4, 0x7F)])).map (·.pc) = some 0x204 ∧
    (after 0x9340 (start [(3, 1), (4, 2)])).map (·.pc) = some 0x204 ∧ (after 0x9330 (start [(3, 1)])).map (·.pc) = some 0x202 := by
  decide

/-- K10 to K12. -/
theorem test_key_skips :
    (after 0xE59E { start [(5, 0x17)] with key := (start []).key.set 7 true }).map (·.pc) = some 0x204 ∧
    (after 0xE5A1 { start [(5, 0x17)] with key := (start []).key.set 7 true }).map (·.pc) = some 0x202 ∧
    (after 0xE5A1 (start [(5, 7)])).map (·.pc) = some 0x204 := by decide

/-- A1, A2, A9, A29. -/
theorem test_loads_adds :
    (after 0x600A (start [])).map (·.getV 0) = some 0x0A ∧
    (after 0x71FF (start [(1, 5)])).map (fun t => (t.getV 1, t.getV 15)) = some (4, 0) ∧
    (after 0x7FFF (start [(15, 1)])).map (·.getV 15) = some 0 ∧
    (after 0x8120 (start [(2, 0x33)])).map (fun t => (t.getV 1, t.getV 2)) = some (0x33, 0x33) := by decide

/-- A22 to A27. -/
theorem test_logic :
    (after 0x8011 (start [(0, 0xF0), (1, 0x0F), (15, 5)])).map (fun t => (t.getV 0, t.getV 15)) = some (0xFF, 5) ∧
    (after 0x8F11 (start [(15, 0xF0), (1, 0x0F)] 0 (straps true false false false false))).map (·.getV 15) = some 0 ∧
    (after 0x80F3 (start [(0, 0xFF), (15, 0x0F)] 0 (straps true false false false false))).map
      (fun t => (t.getV 0, t.getV 15)) = some (0xF0, 0) ∧
    (after 0x8012 (start [(0, 0xF3), (1, 0x3F)])).map (·.getV 0) = some 0x33 := by decide

/-- A4, A7, A8. -/
theorem test_add :
    (after 0x8014 (start [(0, 0xFF), (1, 1)])).map (fun t => (t.getV 0, t.getV 15)) = some (0, 1) ∧
    (after 0x8FE4 (start [(15, 0x90), (14, 0x90)])).map (fun t => (t.getV 15, t.getV 14)) = some (1, 0x90) ∧
    (after 0x80F4 (start [(0, 0xFF), (15, 1)])).map (fun t => (t.getV 0, t.getV 15)) = some (0, 1) := by decide

/-- A10, A11, A13, A14. -/
theorem test_sub :
    (after 0x8015 (start [(0, 5), (1, 0x0A)])).map (fun t => (t.getV 0, t.getV 15)) = some (0xFB, 0) ∧
    (after 0x8015 (start [(0, 0x0A), (1, 0x0A)])).map (fun t => (t.getV 0, t.getV 15)) = some (0, 1) ∧
    (after 0x8017 (start [(0, 5), (1, 0x0A)])).map (fun t => (t.getV 0, t.getV 15)) = some (5, 1) ∧
    (after 0x8017 (start [(0, 0x0A), (1, 5)])).map (fun t => (t.getV 0, t.getV 15)) = some (0xFB, 0) := by decide

/-- A15 to A18, A20. -/
theorem test_shifts :
    (after 0x8016 (start [(0, 5), (1, 8)] 0 (straps false true false false false))).map
      (fun t => (t.getV 0, t.getV 15, t.getV 1)) = some (2, 1, 8) ∧
    (after 0x8016 (start [(0, 5), (1, 8)])).map (fun t => (t.getV 0, t.getV 15)) = some (4, 0) ∧
    (after 0x801E (start [(0, 0x81), (1, 0x40)] 0 (straps false true false false false))).map
      (fun t => (t.getV 0, t.getV 15)) = some (2, 1) ∧
    (after 0x801E (start [(0, 0x81), (1, 0x40)])).map (fun t => (t.getV 0, t.getV 15)) = some (0x80, 0) ∧
    (after 0x8F1E (start [(1, 0x7F)])).map (·.getV 15) = some 0 := by decide

/-- A30 to A32, for the byte that `rand_in` shows. -/
theorem test_random : (after 0xC30F (start [])).map (·.getV 3) = some (Config.randIn 0 &&& 0x0F) ∧
    (after 0xC300 (start [])).map (·.randDraws) = some 1 := ⟨rfl, rfl⟩

/-- M1 to M7. -/
theorem test_index :
    (after 0xA300 (start [])).map (·.idx) = some 0x300 ∧
    (after 0xF01E (start [(0, 1), (15, 5)] 0xFFF)).map (fun t => (t.idx, t.getV 15)) = some (0x1000, 5) ∧
    (after 0xF01E (start [(0, 1)] 0xFFFF)).map (·.idx) = some 0 ∧
    (after 0xF229 (start [(2, 4)])).map (·.idx) = some 0x64 ∧ (after 0xF029 (start [(0, 0xFF)])).map (·.idx) = some 0x54B := by
  decide

/-- M8, M10. -/
theorem test_digits :
    (after 0xF033 (start [(0, 0xEA)] 0x300)).map (fun t => t.readBytes 0x300 3) = some [2, 3, 4] ∧
    (after 0xF033 (start [(0, 0xFF)] 0xFFE)).map (fun t => (t.fault, t.pc, t.readBytes 0xFFE 2)) =
      some (⟨.memRange, 0x1000⟩, 0x200, [0, 0]) := by decide

/-- M13, M15. -/
theorem test_store_registers :
    (after 0xF255 (start [(0, 1), (1, 2), (2, 3)] 0x400 (straps false false false false true))).map
      (fun t => (t.readBytes 0x3FF 5, t.idx)) = some ([0, 1, 2, 3, 0], 0x403) ∧
    (after 0xFF55 (start [(0, 7)] 0xFF1)).map (fun t => (t.fault, t.readByte 0xFF1, t.idx)) =
      some (⟨.memRange, 0x1000⟩, 0, 0xFF1) := by decide

/-- M18 on glyph 0 (M21, R23), M20. -/
theorem test_load_registers :
    (after 0xF165 (start [(2, 9)] 0x50 (straps false false false false true))).map
      (fun t => (t.getV 0, t.getV 1, t.getV 2, t.idx)) = some (0xF0, 0x90, 9, 0x52) ∧
    (after 0xF065 (start [] 0xFFFF)).map (·.fault) = some ⟨.memRange, 0xFFFF⟩ := by decide

/-- D6, glyph 0 at column 60, row 30, wrapped; one notification. -/
theorem test_draw_wraps :
    (after 0xD125 { start [(1, 0x3C), (2, 0x1E)] 0x50 with quirks := ⟨false, false, false, false, false, false⟩ }).map
      (fun t => ([t.fb[30], t.fb[31], t.fb[0], t.fb[1], t.fb[2], t.fb[3]], t.getV 15, t.out.length)) =
      some ([0xF, 0x9, 0x9, 0x9, 0xF, 0], 0, 1) := by decide

/-- D1 and D3 on glyph 0's first row: clipped at the right edge, then drawn again. -/
theorem test_draw_clips_and_collides :
    (after 0xD011 (start [(0, 62), (1, 5)] 0x50)).map (fun t => (t.fb[5], t.getV 15)) = some (3, 0) ∧
    (after 0xD011 { start [(0, 62), (1, 5)] 0x50 with fb := (start []).fb.set 5 3 }).map (fun t => (t.fb[5], t.getV 15)) =
      some (0, 1) := by decide

/-- D8, D9, D12, D13. -/
theorem test_draw_edges :
    (after 0xD000 (start [(15, 9)] 0x1000)).map (fun t => (t.fault.code, t.getV 15, t.out.length)) = some (.none, 0, 1) ∧
    (after 0xD001 (start [(15, 9)] 0x1000)).map (fun t => (t.fault, t.getV 15, t.out)) = some (⟨.memRange, 0x1000⟩, 9, []) ∧
    (after 0xD001 (start [] 0x1000 (straps false false false true false))).map (fun t => (t.pc, t.fault.code)) =
      some (0x200, .none) ∧
    (after 0xD001 { start [] 0x50 (straps false false false true false) with frameReady := true }).map
      (fun t => (t.pc, t.frameReady)) = some (0x202, false) := by decide

/-- D15. -/
theorem test_cls :
    (after 0x00E0 { start [(15, 1)] with fb := (start []).fb.set 5 3 }).map (fun t => (t.fb[5], t.getV 15, t.out.length)) =
      some (0, 1, 1) := by decide

/-- D16: the last byte of the port shows the sprite byte 0x81. -/
theorem test_snapshot : (Framebuffer.snapshot ((start []).fb.set 31 0x81)).drop 254 = [0, 0x81] := by decide

/-- T1 to T3. -/
theorem test_timer_moves :
    (after 0xF315 (start [(3, 0x3C)])).map (·.dt) = some 0x3C ∧ (after 0xF018 (start [(0, 5)])).map (·.st) = some 5 ∧
    (after 0xF307 { start [] with dt := 0x3C }).map (·.getV 3) = some 0x3C := by decide

/-- T7, T9. -/
theorem test_key_wait :
    (after 0xF40A (start [(4, 7)])).map (fun t => (t.pc, t.getV 4)) = some (0x200, 7) ∧
    (after 0xF40A { start [] with key := ((start []).key.set 9 true).set 3 true }).map (fun t => (t.pc, t.getV 4)) =
      some (0x202, 3) := by decide

/-- The next event, listed first. -/
def afterEvent (e : Event) (s : State) : Option State :=
  match step { s with schedule := [e] } with
  | .next t => some t
  | _ => none

/-- T4, T5, T11. -/
theorem test_tick :
    (afterEvent .tick { start [] with dt := 1 }).map (fun t => (t.dt, t.st)) = some (0, 0) ∧
    (afterEvent .tick { start [] with st := 2 }).map (fun t => (t.dt, t.st)) = some (0, 1) ∧
    (afterEvent .tick { start [] with dt := 5, fault := ⟨.stackOverflow, 0x200⟩ }).map (fun t => (t.dt, t.fault.code)) =
      some (4, .stackOverflow) := by decide

/-- T8, T10, R161. -/
theorem test_key_and_frame_events :
    (afterEvent (.keyDown 9) (start [])).map (fun t => (t.keyDown 9, t.keyDown 8)) = some (true, false) ∧
    (afterEvent (.keyUp 9) { start [] with key := (start []).key.set 9 true }).map (·.keyDown 9) = some false ∧
    (afterEvent .frameTick (start [])).map (·.frameReady) = some true := by decide

/-- R4's bytes, and R6. -/
theorem test_load_and_reset :
    (afterEvent (.load [0x60, 0x0A, 0x61, 0x05]) (start [])).map (fun t => (t.readBytes 0x1FF 6, t.pc)) =
      some ([0, 0x60, 0x0A, 0x61, 0x05, 0], 0x200) ∧
    (afterEvent (.reset Config.defaultStraps) { start [(3, 3)] 0x300 with fault := ⟨.memRange, 0x1000⟩, pc := 0x300 }) =
      some State.reset := by decide

/-- A pacing loop that repeats for ever: two steps and a tick (00_scope.md R2). -/
theorem test_endless_order :
    (match runSteps 7 { start [] with dt := 9, hostOrder := .cycle .step [.step, .tick] } with
      | .next t => some (t.pc, t.dt, t.hostOrder)
      | _ => none) = some (0x20A, 7, .cycle .step [.tick, .step]) := by decide

/-- R150's numbers. -/
theorem test_fault_numbers :
    FaultCode.number .none = 0 ∧ FaultCode.number .stackOverflow = 1 ∧ FaultCode.number .stackUnderflow = 2 ∧
    FaultCode.number .memRange = 3 ∧ FaultCode.number .fetchRange = 4 := by decide

/-! ## Witnesses: a state and operands that meet the hypotheses of each statement -/

/-- The state a handler starts in after reset: `pc = a + 2` (R70). -/
def handler (regs : List (Fin 16 × Byte)) (idx : Word := 0) (q : Quirks := Config.defaultStraps) : State :=
  (start regs idx q).advance

theorem witness_DecodeEncode :
    Instr.wellFormed (.sys 0xFFF) = true ∧ Instr.wellFormed (.unknown 0x8128) = true ∧ Instr.wellFormed (.drw 15 15 15) = true := by
  decide

theorem witness_UnrecognisedWords : fieldOp 0x00EF = 0 ∧ (0x00EF : Word) ≠ 0x00E0 ∧ (0x00EF : Word) ≠ 0x00EE := by decide

/-- At the highest address a fetch can be made from, with the `step` event listed. -/
theorem witness_StepRunsDecoded :
    ∃ s : State, s.stepIsNext = true ∧ NoFault s ∧ s.pc.toNat = 0xFFE ∧
      decode [s.readByte s.pc.toNat, s.readByte (s.pc.toNat + 1)] = .ok (.sys 0, []) :=
  ⟨{ start [] with pc := 0xFFE, schedule := [.step, .tick] }, by decide, by decide, by decide, rfl⟩

theorem witness_FaultHaltsCore :
    ∃ s : State, s.stepIsNext = true ∧ ¬ NoFault s := ⟨{ start [] with fault := ⟨.memRange, 0x1000⟩ }, by decide, by decide⟩

theorem witness_FetchOutOfRange :
    ∃ s : State, s.stepIsNext = true ∧ NoFault s ∧ s.pc.toNat = 0xFFF :=
  ⟨{ start [] with pc := 0xFFF }, by decide, by decide, by decide⟩

/-- RET with an empty stack. -/
theorem witness_FaultsArePrecise :
    ∃ s t : State, s.stepIsNext = true ∧ NoFault s ∧ step s = .next t ∧ ¬ NoFault t :=
  ⟨(start []).withFetchWord 16 0x00EE, _, by decide, by decide, rfl, by decide⟩

theorem witness_OnlyResetClearsFault :
    ∃ s t : State, ¬ NoFault s ∧ (∀ straps, s.event ≠ .reset straps) ∧ step s = .next t :=
  ⟨{ start [] with fault := ⟨.memRange, 0x1000⟩, schedule := [.tick] }, _, by decide, by simp [State.event], rfl⟩

theorem witness_CallPushes : (handler []).sp.val < 16 ∧ State.sp { handler [] with sp := 15 } < 16 := by decide

theorem witness_RetPops :
    (State.sp { handler [] with sp := 1 }).val = (0 : Fin 16).val + 1 ∧
    (State.sp { handler [] with sp := 16 }).val = (15 : Fin 16).val + 1 := by decide

theorem witness_StackFaults : State.sp { handler [] with sp := 16 } = 16 ∧ (handler []).sp = 0 := by decide

theorem witness_CallReturnRoundTrip :
    ∃ s t u : State, s.sp ≠ 16 ∧ exec (.call 0x20C) s = .next t ∧ u.sp = t.sp ∧ u.stack = t.stack :=
  ⟨handler [], _, _, by decide, rfl, rfl, rfl⟩

theorem witness_KeySkips : (7 : Fin 16).val = ((handler [(5, 0x17)]).getV 5).toNat % 16 := by decide

theorem witness_LogicResults :
    let s := handler [(0, 0xF3), (1, 0x3F)]
    (0xFF : Byte) = s.getV 0 ||| s.getV 1 ∧ (0x33 : Byte) = s.getV 0 &&& s.getV 1 ∧ (0xCC : Byte) = s.getV 0 ^^^ s.getV 1 := by
  decide

theorem witness_AddSubtractResults :
    255 = ((handler [(0, 0xFF), (1, 1)]).getV 0).toNat ∧ 1 = ((handler [(0, 0xFF), (1, 1)]).getV 1).toNat := by decide

theorem witness_ShiftResults :
    5 = (if (handler [(0, 5)] 0 (straps false true false false false)).quirks.shiftVxOnly
      then (handler [(0, 5)]).getV 0 else (handler [(0, 5)]).getV 1).toNat ∧
    8 = (if (handler [(1, 8)]).quirks.shiftVxOnly then (handler [(1, 8)]).getV 0 else (handler [(1, 8)]).getV 1).toNat := by decide

theorem witness_DecimalDigitsStored :
    255 = ((handler [(0, 255)] 0xFFD).getV 0).toNat ∧ (handler [(0, 255)] 0xFFD).idx.toNat + 2 ≤ 0xFFF := by decide

theorem witness_RegistersStored : (handler [] 0xFF0).idx.toNat + (15 : Fin 16).val ≤ 0xFFF := by decide

theorem witness_RegistersLoaded : (handler [] 0xFFF).idx.toNat + (0 : Fin 16).val ≤ 0xFFF := by decide

/-- The first base out of range for each of the four instructions. -/
theorem witness_DataOutOfRange :
    0xFFF < (handler [] 0xFFE).idx.toNat + 2 ∧ 0xFFF < (handler [] 0xFF1).idx.toNat + (15 : Fin 16).val ∧
    0xFFF < (handler [] 0x1000).idx.toNat + (0 : Fin 16).val ∧
    (14 + 1 = (15 : Fin 16).val ∧ ¬ ((handler [] 0xFF2).quirks.waitFrame = true ∧ (handler [] 0xFF2).frameReady = false) ∧
      0xFFF < (handler [] 0xFF2).idx.toNat + 14) := by decide

/-- All 16 registers up to the last byte, met by a fetch in one byte; three digits up to the last byte, met in both. -/
theorem witness_FetchSeesStore :
    (∃ (s t u : State) (b : Nat → Byte), (∀ r : Reg, b r.val = s.getV r) ∧ s.idx.toNat + 16 = 0x1000 ∧
      exec (.storeRegs 15) s = .next t ∧ (∀ a, u.readByte a = t.readByte a) ∧ u.pc.toNat = 0xFEF) ∧
    ∃ (s t u : State) (b : Nat → Byte), (s.getV 15).toNat = 255 ∧ (b 0).toNat = 255 / 100 ∧ (b 1).toNat = 255 / 10 % 10 ∧
      (b 2).toNat = 255 % 10 ∧ s.idx.toNat + 3 = 0x1000 ∧
      exec (.ldB 15) s = .next t ∧ (∀ a, u.readByte a = t.readByte a) ∧ u.pc.toNat = 0xFFE :=
  ⟨⟨handler [(0, 0x6A), (15, 0x02)] 0xFF0, _, { (handler [(0, 0x6A), (15, 0x02)] 0xFF0).storeBytes 0xFF0 (regsUpTo (handler [(0, 0x6A), (15, 0x02)]) 15) with pc := 0xFEF },
      fun k => ((handler [(0, 0x6A), (15, 0x02)]).v[k]?).getD 0,
      by decide, by decide, rfl, fun _ => rfl, by decide⟩,
    ⟨handler [(15, 255)] 0xFFD, _, { (handler [(15, 255)] 0xFFD).storeBytes 0xFFD (bcdDigits 255) with pc := 0xFFE }, fun k => [2, 5, 5].getD k 0,
      by decide, by decide, by decide, by decide, by decide, rfl, fun _ => rfl, by decide⟩⟩

/-- No row with `I` outside memory, and 15 rows that end at the last byte. -/
theorem witness_DrawSprite :
    ¬ ((handler [] 0x1000).quirks.waitFrame = true ∧ (handler [] 0x1000).frameReady = false) ∧ (0 : Fin 16).val = 0 ∧
    ¬ ((handler [] 0xFF1).quirks.waitFrame = true ∧ (handler [] 0xFF1).frameReady = false) ∧
    (handler [] 0xFF1).idx.toNat + ((15 : Fin 16).val - 1) ≤ 0xFFF := by decide

theorem witness_DrawStalls :
    (handler [] 0 (straps false false false true false)).quirks.waitFrame = true ∧
    (handler [] 0 (straps false false false true false)).frameReady = false := by decide

theorem witness_DrawTwiceRestores :
    ∃ s t u : State, frameGate s = false ∧ frameGate u = false ∧
      ((5 : Fin 16).val = 0 ∨ s.idx.toNat + ((5 : Fin 16).val - 1) ≤ 0xFFF) ∧ exec (.drw 0 1 5) s = .next t ∧
      u.fb = t.fb ∧ u.idx = s.idx ∧ u.getV 0 = s.getV 0 ∧ u.getV 1 = s.getV 1 ∧ u.quirks.clip = s.quirks.clip ∧
      ∀ r, r < (5 : Fin 16).val → u.readByte (s.idx.toNat + r) = s.readByte (s.idx.toNat + r) :=
  ⟨handler [(0, 62), (1, 5)] 0x50, _, _, by decide, by decide, .inr (by decide), rfl, rfl, rfl, rfl, rfl, rfl, fun _ _ => rfl⟩

theorem witness_NoCollisionAfterClear :
    ∃ s t u : State, exec .cls s = .next t ∧ u.fb = t.fb ∧ frameGate u = false ∧
      ((1 : Fin 16).val = 0 ∨ u.idx.toNat + ((1 : Fin 16).val - 1) ≤ 0xFFF) :=
  ⟨handler [] 0x50, _, _, rfl, rfl, by decide, .inr (by decide)⟩

theorem witness_KeyWaitCompletes :
    ∃ s : State, s.key[(15 : Fin 16).val] = true ∧ ∀ j : Fin 16, j < 15 → s.key[j.val] = false :=
  ⟨{ handler [] with key := (start []).key.set 15 true }, by decide, by decide⟩

/-- With a `step` event listed. -/
theorem witness_KeyWaitHolds :
    ∃ s : State, (∀ k : Fin 16, s.key[k.val] = false) ∧ s.schedule = [.step, .keyDown 3] ∧ s.stepIsNext = true ∧ NoFault s ∧
      fetch s = .ok (encode (.ldVxK 4)) :=
  ⟨{ start [] with schedule := [.step, .keyDown 3] }.withFetchWord 16 0xF40A, by decide, rfl, rfl, by decide, rfl⟩

/-- Listed, and in an endless order. -/
theorem witness_TickCountsDown : (∃ s : State, s.event = .tick ∧ s.schedule ≠ []) ∧ ∃ s : State, s.event = .tick ∧ s.schedule = [] :=
  ⟨⟨{ start [] with dt := 1, schedule := [.tick, .step] }, rfl, by simp⟩, ⟨{ start [] with hostOrder := .cycle .tick [.step] }, rfl, rfl⟩⟩

theorem witness_KeyEvents :
    (∃ s : State, s.event = .keyDown 15) ∧ ∃ s : State, s.event = .keyUp 0 :=
  ⟨⟨{ start [] with schedule := [.keyDown 15] }, rfl⟩, ⟨{ start [] with schedule := [.keyUp 0] }, rfl⟩⟩

theorem witness_FrameTick : ∃ s : State, s.event = .frameTick := ⟨{ start [] with schedule := [.frameTick] }, rfl⟩

/-- The largest image, and one byte more (vectors R2, R3). -/
theorem witness_LoadImage :
    (∃ (s : State) (image : List Byte), s.event = .load image ∧ image.length = 3584) ∧
    ∃ (s : State) (image : List Byte), s.event = .load image ∧ image.length = 3585 :=
  ⟨⟨{ start [] with schedule := [.load (List.replicate 3584 0xAA)] }, _, rfl, List.length_replicate⟩,
   ⟨{ start [] with schedule := [.load (List.replicate 3585 0xAA)] }, _, rfl, List.length_replicate⟩⟩

theorem witness_ResetEvent : ∃ s : State, s.event = .reset Config.defaultStraps ∧ ¬ NoFault s :=
  ⟨{ start [] with schedule := [.reset Config.defaultStraps], fault := ⟨.memRange, 0x1000⟩ }, rfl, by decide⟩

theorem witness_BootFetchesImage :
    ∃ s : State, s.event = .reset Config.defaultStraps ∧ s.consume.event = .load (0x60 :: 0x0A :: []) ∧
      ((0x60 : Byte) :: 0x0A :: []).length ≤ 3584 :=
  ⟨{ start [] with schedule := [.reset Config.defaultStraps, .load [0x60, 0x0A], .step] }, rfl, rfl, by decide⟩

/-- Ticks for ever, after a key. -/
theorem witness_TickKeyFrameNoProgress : ∃ s : State, OnlyTickKeyFrame s ∧ s.schedule = [.keyDown 3] ∧ s.hostOrder = .cycle .tick [] :=
  ⟨{ start [] with schedule := [.keyDown 3], hostOrder := .cycle .tick [] },
    ⟨by simp [Event.isTickKeyFrame], by simp [HostOrder.OnlyTickKeyFrame, Event.isTickKeyFrame]⟩, rfl, rfl⟩

theorem witness_InvariantKept : ∃ s t : State, Invariant s ∧ step s = .next t :=
  ⟨State.reset, _, ⟨Memory.wf_nil _, by decide, by decide, trivial⟩, rfl⟩

/-- RegisterFrame, with a register the instruction may not write beside those it may. -/
theorem witness_RegisterFrame :
    ∃ s t : State, exec (.addReg 1 2) s = .next t ∧ mayWrite s.quirks 2 (.addReg 1 2) = false ∧
      mayWrite s.quirks 15 (.addReg 1 2) = true := ⟨handler [], _, rfl, by decide, by decide⟩

theorem witness_MemoryFrame :
    ∃ s t : State, exec (.loadRegs 3) s = .next t ∧ ∀ x, Instr.loadRegs 3 ≠ .ldB x ∧ Instr.loadRegs 3 ≠ .storeRegs x :=
  ⟨handler [] 0x50, _, rfl, by simp⟩

theorem witness_StackFrame :
    ∃ s t : State, exec (.jp 0x300) s = .next t ∧ (∀ nnn, Instr.jp 0x300 ≠ .call nnn) ∧ Instr.jp 0x300 ≠ .ret :=
  ⟨handler [], _, rfl, by simp, by simp⟩

/-- ControlStateFrame: each inner premise holds of CLS or of LD Vx, kk. -/
theorem witness_ControlStateFrame :
    (∃ s t : State, exec (.ldImm 0 1) s = .next t) ∧ (∀ x, Instr.ldImm 0 1 ≠ .ldDtVx x) ∧ (∀ x, Instr.ldImm 0 1 ≠ .ldStVx x) ∧
    Instr.ldImm 0 1 ≠ .cls ∧ (∀ x y n, Instr.ldImm 0 1 ≠ .drw x y n) ∧ (∀ nnn, Instr.ldImm 0 1 ≠ .ldI nnn) ∧
    (∀ x, Instr.ldImm 0 1 ≠ .addI x ∧ Instr.ldImm 0 1 ≠ .ldF x) ∧
    (∀ x, Instr.ldImm 0 1 ≠ .storeRegs x ∧ Instr.ldImm 0 1 ≠ .loadRegs x) :=
  ⟨⟨handler [], _, rfl⟩, by simp, by simp, by simp, by simp, by simp, by simp, by simp⟩

theorem witness_OutputsOfInstructions : ∃ s t : State, exec (.sys 0x234) s = .next t ∧ t.out ≠ s.out :=
  ⟨handler [], _, rfl, by decide⟩

theorem witness_SoundTimerUnread : ∃ s t : State, exec (.ldStVx 3) s = .next t := ⟨handler [(3, 3)], _, rfl⟩

theorem witness_OutputsUnread : ∃ s t : State, step s = .next t := ⟨State.reset, _, rfl⟩

/-- F2: a jump to itself, with a `step` event listed. -/
theorem witness_FinishedStays : ∃ s : State, Finished s ∧ s.schedule = [.step] ∧ s.stepIsNext = true :=
  ⟨{ start [] with schedule := [.step] }.withFetchWord 16 0x1200, ⟨by decide, rfl⟩, rfl, rfl⟩

end Sys2Proof.Tests
end

section
/-! Emitted events are not read (00_scope.md R4): each event and each instruction acts the same on two states that differ in the
list of emitted events alone. -/

namespace Sys2Proof.Machine

/-- The meaning `f` answers the same, but for what was emitted, whatever was emitted before. -/
def OutUnread (f : State → Outcome) : Prop :=
  ∀ (s t : State) (o : List OutEvent), f s = .next t → ∃ u, f { s with out := o } = .next u ∧ { u with out := t.out } = t

/-! ### How meanings are put together -/

/-- A meaning that always goes on: its update has to treat the two states alike. -/
theorem OutUnread.of_update {f : State → State} (h : ∀ s o, { f { s with out := o } with out := (f s).out } = f s) :
    OutUnread fun s => .next (f s) := by
  intro s t o ht
  obtain rfl := Host.Outcome.next.inj ht
  exact ⟨_, rfl, h s o⟩

/-- A branch on a condition that does not read what was emitted. -/
theorem OutUnread.ite {c : State → Prop} [DecidablePred c] {f g : State → Outcome}
    (hc : ∀ s o, c { s with out := o } ↔ c s) (hf : OutUnread f) (hg : OutUnread g) :
    OutUnread fun s => if c s then f s else g s := by
  intro s t o ht
  by_cases h : c s
  · simp only [hc, if_pos h] at ht ⊢
    exact hf s t o ht
  · simp only [hc, if_neg h] at ht ⊢
    exact hg s t o ht

theorem outUnread_raise (code : FaultCode) (addr : State → Word) (h : ∀ s o, addr { s with out := o } = addr s) :
    OutUnread fun s => raise code (addr s) s :=
  .of_update fun s o => by simp only [h]; rfl

theorem outUnread_stall : OutUnread stall := .of_update fun _ _ => rfl

theorem outUnread_withRange (m : Nat) {go : State → Outcome} (h : OutUnread go) : OutUnread fun s => withRange m s go :=
  .ite (fun _ _ => Iff.rfl) h (outUnread_raise _ _ fun _ _ => rfl)

theorem outUnread_skipIf (c : State → Bool) (h : ∀ s o, c { s with out := o } = c s) : OutUnread fun s => skipIf (c s) s := by
  simp only [skipIf_eq]
  exact .of_update fun s o => by simp only [h]

/-! ### The meanings with more than one outcome -/

theorem outUnread_execRet : OutUnread execRet := by
  intro s t o h
  rcases execRet_cases h with ⟨hp, rfl⟩ | ⟨h0, rfl⟩
  · exact ⟨_, by rw [execRet, State.pop_of_pos (s := { s with out := o }) hp], rfl⟩
  · exact ⟨_, by rw [execRet, State.pop_eq_none (s := { s with out := o }).mpr h0, raise_eq], rfl⟩

theorem outUnread_execCall (nnn : Addr12) : OutUnread (execCall nnn) := by
  intro s t o h
  rcases execCall_cases h with ⟨hp, rfl⟩ | ⟨h0, rfl⟩
  · exact ⟨_, by rw [execCall, State.push_of_lt (s := { s with out := o }) hp], rfl⟩
  · exact ⟨_, by rw [execCall, State.push_eq_none (s := { s with out := o }).mpr h0, raise_eq], rfl⟩

theorem outUnread_execLdVxK (x : Reg) : OutUnread (execLdVxK x) := by
  intro s t o h
  have same : lowestKey { s with out := o } = lowestKey s := rfl
  rcases execLdVxK_cases h with ⟨hk, rfl⟩ | ⟨k, hk, rfl⟩
  · exact ⟨_, by rw [execLdVxK, same, hk, stall_eq], rfl⟩
  · exact ⟨_, by rw [execLdVxK, same, hk], rfl⟩

theorem outUnread_execDrw (x y : Reg) (n : Fin 16) : OutUnread (execDrw x y n) := by
  have draws (m : Nat) : OutUnread fun s => .next (drawNow x y m s) := .of_update fun _ _ => rfl
  exact .ite (fun _ _ => Iff.rfl) outUnread_stall
    (.ite (fun _ _ => Iff.rfl) (draws 0) (outUnread_withRange _ (draws n.val)))

theorem outUnread_setLogic (x : Reg) (b : State → Byte) (h : ∀ s o, b { s with out := o } = b s) :
    OutUnread fun s => .next (s.setLogic x (b s)) := by
  refine .of_update fun s o => ?_
  simp only [h, State.setLogic]
  split <;> rfl

/-! ### All instructions, all events -/

theorem outUnread_exec (i : Instr) : OutUnread (exec i) := by
  cases i with
  | ret => exact outUnread_execRet
  | call nnn => exact outUnread_execCall nnn
  | ldVxK x => exact outUnread_execLdVxK x
  | drw x y n => exact outUnread_execDrw x y n
  | ldB x | storeRegs x | loadRegs x => exact outUnread_withRange _ (.of_update fun _ _ => rfl)
  | orReg x y | andReg x y | xorReg x y => exact outUnread_setLogic x _ fun _ _ => rfl
  | seImm _ _ | sneImm _ _ | seReg _ _ | sneReg _ _ | skp _ | sknp _ => exact outUnread_skipIf _ fun _ _ => rfl
  | _ => exact .of_update fun _ _ => rfl

theorem outUnread_stepEvent : OutUnread stepEvent := by
  refine .ite (fun _ _ => Iff.rfl) (fun s t o h => ?_) (.of_update fun _ _ => rfl)
  have same : fetch { s with out := o } = fetch s := rfl
  rw [same]
  cases hf : fetch s with
  | error f =>
    rw [hf] at h
    exact OutUnread.of_update (f := fun s => { s with fault := f }) (fun _ _ => rfl) s t o h
  | ok w =>
    rw [hf] at h
    exact outUnread_exec (decodeWord w) s.advance t o h

theorem outUnread_runEvent (e : Event) : OutUnread (runEvent e) := by
  cases e with
  | step => exact outUnread_stepEvent
  | load image =>
    refine .of_update fun s o => ?_
    unfold onLoad
    split <;> rfl
  | tick | keyDown _ | keyUp _ | frameTick | reset _ => exact .of_update fun _ _ => rfl

/-- Settles O59: the next event and the state without it are the same whatever was emitted, and no event reads the list. -/
theorem outputsUnread : Obligations.OutputsUnread := by
  unfold Obligations.OutputsUnread
  exact fun s t o h => outUnread_runEvent s.event s.consume t o h

end Sys2Proof.Machine
end

section
/-! A host that sends only `tick`, key and `frame_tick` events (00_scope.md R2, decision D23): one event keeps the order of that
kind and leaves the program where it is, and so do any number of them. -/

namespace Sys2Proof.Machine

/-! ### What remains of the order -/

theorem HostOrder.OnlyTickKeyFrame.first {h : HostOrder} (only : h.OnlyTickKeyFrame) : h.first.isTickKeyFrame = true := by
  cases h with
  | cycle e es => exact only e (by simp)
  | free n => exact only n le_rfl

theorem HostOrder.OnlyTickKeyFrame.tail {h : HostOrder} (only : h.OnlyTickKeyFrame) : h.tail.OnlyTickKeyFrame := by
  cases h with
  | cycle e es =>
    cases es with
    | nil => exact only
    | cons e' es => exact fun d hd => only d (by simp at hd ⊢; tauto)
  | free n => exact fun k hk => only k (by omega)

theorem OnlyTickKeyFrame.event {s : State} (only : OnlyTickKeyFrame s) : s.event.isTickKeyFrame = true := by
  obtain ⟨listed, order⟩ := only
  cases hs : s.schedule with
  | nil => rw [(State.event_of_order hs).1]; exact order.first
  | cons e es => rw [(State.event_of_schedule hs).1]; exact listed e (by simp [hs])

theorem OnlyTickKeyFrame.consume {s : State} (only : OnlyTickKeyFrame s) : OnlyTickKeyFrame s.consume := by
  obtain ⟨listed, order⟩ := only
  cases hs : s.schedule with
  | nil => rw [(State.event_of_order hs).2]; exact ⟨listed, order.tail⟩
  | cons e es =>
    rw [(State.event_of_schedule hs).2]
    exact ⟨fun d hd => listed d (by simp [hs, hd]), order⟩

/-! ### What the events change -/

/-- From `s` to `t` only the timers, the keys and the frame-ready flag change (and the order of events, the model's own): the
timers do not rise and the flag is not cleared. -/
structure NoProgress (s t : State) : Prop where
  frame : t = { s with dt := t.dt, st := t.st, key := t.key, frameReady := t.frameReady, schedule := t.schedule,
                       hostOrder := t.hostOrder }
  dt_le : t.dt.toNat ≤ s.dt.toNat
  st_le : t.st.toNat ≤ s.st.toNat
  frameReady_kept : s.frameReady = true → t.frameReady = true

theorem NoProgress.refl (s : State) : NoProgress s s := ⟨rfl, le_rfl, le_rfl, id⟩

theorem NoProgress.trans {s t u : State} (h : NoProgress s t) (h' : NoProgress t u) : NoProgress s u where
  frame := by
    have e := h'.frame
    rw [h.frame] at e
    exact e
  dt_le := h'.dt_le.trans h.dt_le
  st_le := h'.st_le.trans h.st_le
  frameReady_kept := h'.frameReady_kept ∘ h.frameReady_kept

theorem noProgress_consume (s : State) : NoProgress s s.consume := ⟨rfl, le_rfl, le_rfl, id⟩

/-- A timer does not wrap (60_exceptions.md R158). -/
theorem toNat_countDown_le (b : Byte) : (countDown b).toNat ≤ b.toNat := by
  unfold countDown
  split
  · simp
  · bv_omega

/-- One of these events answers a next state without progress, and does not touch the order. -/
theorem runEvent_noProgress {e : Event} (he : e.isTickKeyFrame = true) (s : State) :
    ∃ t, runEvent e s = .next t ∧ NoProgress s t ∧ t.schedule = s.schedule ∧ t.hostOrder = s.hostOrder := by
  cases e with
  | tick => exact ⟨onTick s, rfl, ⟨rfl, toNat_countDown_le s.dt, toNat_countDown_le s.st, id⟩, rfl, rfl⟩
  | keyDown k => exact ⟨onKeyDown k s, rfl, ⟨rfl, le_rfl, le_rfl, id⟩, rfl, rfl⟩
  | keyUp k => exact ⟨onKeyUp k s, rfl, ⟨rfl, le_rfl, le_rfl, id⟩, rfl, rfl⟩
  | frameTick => exact ⟨onFrameTick s, rfl, ⟨rfl, le_rfl, le_rfl, fun _ => rfl⟩, rfl, rfl⟩
  | step | load _ | reset _ => cases he

theorem OnlyTickKeyFrame.step {s : State} (only : OnlyTickKeyFrame s) :
    ∃ t, step s = .next t ∧ NoProgress s t ∧ OnlyTickKeyFrame t := by
  obtain ⟨t, run, quiet, hsched, horder⟩ := runEvent_noProgress only.event s.consume
  refine ⟨t, (step_of_event rfl).trans run, (noProgress_consume s).trans quiet, ?_⟩
  rw [OnlyTickKeyFrame, hsched, horder]
  exact only.consume

theorem runSteps_succ_of_next {s t : State} (n : Nat) (h : step s = .next t) : runSteps (n + 1) s = runSteps n t := by
  rw [runSteps, h]

theorem OnlyTickKeyFrame.runSteps (n : Nat) {s : State} (only : OnlyTickKeyFrame s) :
    ∃ t, runSteps n s = .next t ∧ NoProgress s t := by
  induction n generalizing s with
  | zero => exact ⟨s, rfl, .refl s⟩
  | succ n ih =>
    obtain ⟨t, first, quiet, only'⟩ := only.step
    obtain ⟨u, rest, quiet'⟩ := ih only'
    exact ⟨u, (runSteps_succ_of_next n first).trans rest, quiet.trans quiet'⟩

/-- Settles O50, by induction on the number of events: each keeps the order of this kind and makes no progress. -/
theorem tickKeyFrameNoProgress : Obligations.TickKeyFrameNoProgress := by
  unfold Obligations.TickKeyFrameNoProgress
  intro n s only
  obtain ⟨t, run, quiet⟩ := only.runSteps n
  exact ⟨t, run, quiet.frame, quiet.dt_le, quiet.st_le, quiet.frameReady_kept⟩

end Sys2Proof.Machine
end

section
/-! What an instruction may write, in one table (10_state.md R10 to R21): each row names the fields of the state the instruction can
change, every other field is kept. The frame of each field is read off the table. -/

namespace Sys2Proof.Machine

/-! ### The table -/

/-- From `s` to `t` only the fields the instruction writes have changed: its effect, and for an instruction that can stall or fault
`pc` and the fault report (40_step_control.md R71, 60_exceptions.md R151). -/
def WritesOnly (s t : State) : Instr → Prop
  | .jp _ | .jpV0 _ | .seImm _ _ | .sneImm _ _ | .seReg _ _ | .sneReg _ _ | .skp _ | .sknp _ => t = { s with pc := t.pc }
  | .call _ => t = { s with pc := t.pc, sp := t.sp, stack := t.stack, fault := t.fault }
  | .ret => t = { s with pc := t.pc, sp := t.sp, fault := t.fault }
  | .ldImm _ _ | .addImm _ _ | .ldReg _ _ | .orReg _ _ | .andReg _ _ | .xorReg _ _ | .addReg _ _ | .subReg _ _ | .shr _ _
  | .subn _ _ | .shl _ _ | .ldVxDt _ => t = { s with v := t.v }
  | .rnd _ _ => t = { s with v := t.v, randDraws := t.randDraws }
  | .ldVxK _ => t = { s with v := t.v, pc := t.pc }
  | .ldDtVx _ => t = { s with dt := t.dt }
  | .ldStVx _ => t = { s with st := t.st }
  | .ldI _ | .addI _ | .ldF _ => t = { s with idx := t.idx }
  | .ldB _ => t = { s with mem := t.mem, pc := t.pc, fault := t.fault }
  | .storeRegs _ => t = { s with mem := t.mem, idx := t.idx, pc := t.pc, fault := t.fault }
  | .loadRegs _ => t = { s with v := t.v, idx := t.idx, pc := t.pc, fault := t.fault }
  | .cls => t = { s with fb := t.fb, out := t.out }
  | .drw _ _ _ => t = { s with v := t.v, fb := t.fb, frameReady := t.frameReady, out := t.out, pc := t.pc, fault := t.fault }
  | .sys _ | .unknown _ => t = { s with out := t.out }

theorem exec_writesOnly {i : Instr} {s t : State} (h : exec i s = .next t) : WritesOnly s t i := by
  cases i with
  | ret => rcases execRet_cases h with ⟨_, rfl⟩ | ⟨_, rfl⟩ <;> rfl
  | call nnn => rcases execCall_cases h with ⟨_, rfl⟩ | ⟨_, rfl⟩ <;> rfl
  | ldB x => rcases execLdB_cases h with ⟨_, rfl⟩ | ⟨_, rfl⟩ <;> rfl
  | storeRegs x => rcases execStoreRegs_cases h with ⟨_, rfl⟩ | ⟨_, rfl⟩ <;> rfl
  | loadRegs x => rcases execLoadRegs_cases h with ⟨_, rfl⟩ | ⟨_, rfl⟩ <;> rfl
  | drw x y n => rcases execDrw_cases h with ⟨_, rfl⟩ | ⟨_, _, rfl⟩ | ⟨_, _, _, rfl⟩ <;> rfl
  | ldVxK x => rcases execLdVxK_cases h with ⟨_, rfl⟩ | ⟨_, _, rfl⟩ <;> rfl
  | orReg x y | andReg x y | xorReg x y =>
    obtain rfl := Host.Outcome.next.inj h
    exact State.setLogic_frame s x _
  | seImm _ _ | sneImm _ _ | seReg _ _ | sneReg _ _ | skp _ | sknp _ =>
    obtain rfl := Host.Outcome.next.inj ((skipIf_eq _ s).symm.trans h)
    rfl
  | _ =>
    obtain rfl := Host.Outcome.next.inj h
    rfl

/-! ### One field at a time -/

section
variable {i : Instr} {s t : State} (h : exec i s = .next t)
include h

/-- No row lists the keypad latch, the quirks, the font or the host's order. -/
theorem exec_key : t.key = s.key := by
  cases i <;> exact (congrArg State.key (exec_writesOnly h) :)

theorem exec_quirks : t.quirks = s.quirks := by
  cases i <;> exact (congrArg State.quirks (exec_writesOnly h) :)

theorem exec_font : t.font = s.font := by
  cases i <;> exact (congrArg State.font (exec_writesOnly h) :)

theorem exec_schedule : t.schedule = s.schedule := by
  cases i <;> exact (congrArg State.schedule (exec_writesOnly h) :)

theorem exec_hostOrder : t.hostOrder = s.hostOrder := by
  cases i <;> exact (congrArg State.hostOrder (exec_writesOnly h) :)

theorem exec_dt (ne : ∀ x, i ≠ .ldDtVx x) : t.dt = s.dt := by
  cases i with
  | ldDtVx x => exact absurd rfl (ne x)
  | _ => exact (congrArg State.dt (exec_writesOnly h) :)

theorem exec_st (ne : ∀ x, i ≠ .ldStVx x) : t.st = s.st := by
  cases i with
  | ldStVx x => exact absurd rfl (ne x)
  | _ => exact (congrArg State.st (exec_writesOnly h) :)

theorem exec_fb (neCls : i ≠ .cls) (neDrw : ∀ x y n, i ≠ .drw x y n) : t.fb = s.fb := by
  cases i with
  | cls => exact absurd rfl neCls
  | drw x y n => exact absurd rfl (neDrw x y n)
  | _ => exact (congrArg State.fb (exec_writesOnly h) :)

/-- A draw consumes the flag under `Q_WAIT_FRAME` only (44_display.md R132). -/
theorem exec_frameReady (keeps : s.quirks.waitFrame = false ∨ ∀ x y n, i ≠ .drw x y n) : t.frameReady = s.frameReady := by
  cases i with
  | drw x y n =>
    have noWait : s.quirks.waitFrame = false := keeps.resolve_right fun ne => ne x y n rfl
    rcases execDrw_cases h with ⟨_, rfl⟩ | ⟨_, _, rfl⟩ | ⟨_, _, _, rfl⟩
    · rfl
    · rw [drawNow_frame, noWait]
      rfl
    · rfl
  | _ => exact (congrArg State.frameReady (exec_writesOnly h) :)

/-- A block transfer moves `I` under `Q_INC_I` only (43_index_memory.md R124, R125). -/
theorem exec_idx (neLdI : ∀ nnn, i ≠ .ldI nnn) (ne : ∀ x, i ≠ .addI x ∧ i ≠ .ldF x)
    (keeps : s.quirks.incI = false ∨ ∀ x, i ≠ .storeRegs x ∧ i ≠ .loadRegs x) : t.idx = s.idx := by
  have block (noInc : s.quirks.incI = false) (x : Reg) : idxAfterBlock s x = s.idx := by simp [idxAfterBlock, noInc]
  cases i with
  | ldI nnn => exact absurd rfl (neLdI nnn)
  | addI x => exact absurd rfl (ne x).1
  | ldF x => exact absurd rfl (ne x).2
  | storeRegs x =>
    rcases execStoreRegs_cases h with ⟨_, rfl⟩ | ⟨_, rfl⟩
    · exact block (keeps.resolve_right fun ne => (ne x).1 rfl) x
    · rfl
  | loadRegs x =>
    rcases execLoadRegs_cases h with ⟨_, rfl⟩ | ⟨_, rfl⟩
    · exact block (keeps.resolve_right fun ne => (ne x).2 rfl) x
    · rfl
  | _ => exact (congrArg State.idx (exec_writesOnly h) :)

theorem exec_stack (ne : ∀ nnn, i ≠ .call nnn) : t.stack = s.stack := by
  cases i with
  | call nnn => exact absurd rfl (ne nnn)
  | _ => exact (congrArg State.stack (exec_writesOnly h) :)

theorem exec_sp (neCall : ∀ nnn, i ≠ .call nnn) (neRet : i ≠ .ret) : t.sp = s.sp := by
  cases i with
  | call nnn => exact absurd rfl (neCall nnn)
  | ret => exact absurd rfl neRet
  | _ => exact (congrArg State.sp (exec_writesOnly h) :)

/-- The registers, by how an instruction writes them: one register, one and a flag, VF by a draw, a block. -/
theorem exec_getV {r : Reg} (hr : mayWrite s.quirks r i = false) : t.getV r = s.getV r := by
  cases i with
  | ldImm x _ | addImm x _ | ldReg x _ | rnd x _ | ldVxDt x =>
    have ne : r ≠ x := by simpa [mayWrite] using hr
    obtain rfl := Host.Outcome.next.inj h
    exact State.getV_setV_ne _ _ ne
  | ldVxK x =>
    have ne : r ≠ x := by simpa [mayWrite] using hr
    rcases execLdVxK_cases h with ⟨_, rfl⟩ | ⟨_, _, rfl⟩
    · rfl
    · exact State.getV_setV_ne _ _ ne
  | orReg x _ | andReg x _ | xorReg x _ =>
    obtain ⟨ne, neVF⟩ : r ≠ x ∧ (s.quirks.logicResetsVf = true → r ≠ 15) := by simpa [mayWrite] using hr
    obtain rfl := Host.Outcome.next.inj h
    rw [State.getV_setLogic, if_neg fun ⟨hq, hVF⟩ => neVF hq hVF, if_neg ne]
  | addReg x _ | subReg x _ | shr x _ | subn x _ | shl x _ =>
    obtain ⟨ne, neVF⟩ : r ≠ x ∧ r ≠ 15 := by simpa [mayWrite] using hr
    obtain rfl := Host.Outcome.next.inj h
    rw [State.getV_setWithFlag, if_neg neVF, if_neg ne]
  | drw x y n =>
    have neVF : r ≠ 15 := by simpa [mayWrite] using hr
    rcases execDrw_cases h with ⟨_, rfl⟩ | ⟨_, _, rfl⟩ | ⟨_, _, _, rfl⟩
    · rfl
    · rw [getV_drawNow, if_neg neVF]
    · rfl
  | loadRegs x =>
    have above : x < r := by simpa [mayWrite] using hr
    rcases execLoadRegs_cases h with ⟨_, rfl⟩ | ⟨_, rfl⟩
    · show (fillRegs _ _ _ _)[r.val] = _
      rw [fillRegs_getElem, if_neg (Nat.not_lt.mpr above)]
      rfl
    · rfl
  | _ => exact (congrArg (fun u => u.getV r) (exec_writesOnly h) :)

end

/-! ### The statements -/

/-- Settles O53, from what each kind of write leaves of the registers. -/
theorem registerFrame : Obligations.RegisterFrame := by
  unfold Obligations.RegisterFrame
  exact fun _ _ _ _ h hr => exec_getV h hr

/-- Settles O55: no row of the table but CALL's lists the entries, none but CALL's and RET's lists `sp`. -/
theorem stackFrame : Obligations.StackFrame := by
  unfold Obligations.StackFrame
  exact fun _ _ _ h neCall => ⟨exec_stack h neCall, exec_sp h neCall⟩

/-- Settles O56, field by field from the table of writes. -/
theorem controlStateFrame : Obligations.ControlStateFrame := by
  unfold Obligations.ControlStateFrame
  exact fun _ _ _ h => ⟨exec_key h, exec_quirks h, exec_font h, exec_schedule h, exec_hostOrder h, exec_dt h, exec_st h,
    exec_fb h, exec_frameReady h, exec_idx h⟩

end Sys2Proof.Machine
end

section
/-! The sound timer is not read (10_state.md R15): every instruction but LD ST, Vx commutes with setting `ST`. -/

namespace Sys2Proof.Machine

/-- The outcome with `ST` replaced in the next state. -/
def withSt (b : Byte) : Outcome → Outcome
  | .next t => .next { t with st := b }
  | .fault r => .fault r
  | .refused r => .refused r

/-- The range check does not read `ST`, so what follows it decides (43_index_memory.md R126). -/
theorem withRange_withSt (m : Nat) (s : State) (b : Byte) (go : State → Outcome)
    (h : go { s with st := b } = withSt b (go s)) :
    withRange m { s with st := b } go = withSt b (withRange m s go) := by
  rw [withRange, withRange, apply_ite (withSt b), h]
  rfl

theorem execRet_withSt (s : State) (b : Byte) : execRet { s with st := b } = withSt b (execRet s) := by
  by_cases hp : 0 < s.sp.val
  · rw [execRet, execRet, State.pop_of_pos hp, State.pop_of_pos (s := { s with st := b }) hp]
    rfl
  · have h0 : s.sp = 0 := Fin.ext (by simpa using hp)
    rw [execRet, execRet, State.pop_eq_none.mpr h0, State.pop_eq_none (s := { s with st := b }).mpr h0]
    rfl

theorem execCall_withSt (nnn : Addr12) (s : State) (b : Byte) :
    execCall nnn { s with st := b } = withSt b (execCall nnn s) := by
  by_cases hp : s.sp.val < 16
  · rw [execCall, execCall, State.push_of_lt hp, State.push_of_lt (s := { s with st := b }) hp]
    rfl
  · have full : s.sp = 16 := Fin.ext (by simp; omega)
    rw [execCall, execCall, State.push_eq_none.mpr full, State.push_eq_none (s := { s with st := b }).mpr full]
    rfl

theorem execLdVxK_withSt (x : Reg) (s : State) (b : Byte) :
    execLdVxK x { s with st := b } = withSt b (execLdVxK x s) := by
  have same : lowestKey { s with st := b } = lowestKey s := rfl
  rw [execLdVxK, execLdVxK, same]
  cases lowestKey s <;> rfl

theorem execDrw_withSt (x y : Reg) (n : Fin 16) (s : State) (b : Byte) :
    execDrw x y n { s with st := b } = withSt b (execDrw x y n s) := by
  rw [execDrw, execDrw, apply_ite (withSt b), apply_ite (withSt b), ← withRange_withSt _ _ _ _ rfl]
  rfl

theorem setLogic_withSt (x : Reg) (r : Byte) (s : State) (b : Byte) :
    State.setLogic { s with st := b } x r = { s.setLogic x r with st := b } := by
  unfold State.setLogic
  split <;> rfl

/-- Every instruction but the one that sets `ST` does the same whatever `ST` holds, and leaves it. -/
theorem exec_withSt {i : Instr} (ne : ∀ x, i ≠ .ldStVx x) (s : State) (b : Byte) :
    exec i { s with st := b } = withSt b (exec i s) := by
  cases i with
  | ldStVx x => exact absurd rfl (ne x)
  | ret => exact execRet_withSt s b
  | call nnn => exact execCall_withSt nnn s b
  | ldVxK x => exact execLdVxK_withSt x s b
  | drw x y n => exact execDrw_withSt x y n s b
  | ldB x | storeRegs x | loadRegs x =>
    simp only [exec, execLdB, execStoreRegs, execLoadRegs]
    exact withRange_withSt _ s b _ rfl
  | orReg x y | andReg x y | xorReg x y => exact congrArg Host.Outcome.next (setLogic_withSt x _ s b)
  | seImm _ _ | sneImm _ _ | seReg _ _ | sneReg _ _ | skp _ | sknp _ =>
    exact (skipIf_eq _ _).trans (congrArg (withSt b) (skipIf_eq _ s).symm)
  | _ => rfl

/-- Settles O58: LD ST, Vx writes what `Vx` holds, every other instruction commutes with setting `ST`. -/
theorem soundTimerUnread : Obligations.SoundTimerUnread := by
  unfold Obligations.SoundTimerUnread
  intro i s t b h
  by_cases sets : ∃ x, i = .ldStVx x
  · obtain ⟨x, rfl⟩ := sets
    obtain rfl := Host.Outcome.next.inj h
    exact ⟨_, rfl, rfl⟩
  · have run := exec_withSt (fun x e => sets ⟨x, e⟩) s b
    rw [h] at run
    exact ⟨_, run, rfl⟩

end Sys2Proof.Machine
end

section
/-! The invariant of the machine (10_state.md R12, 40_step_control.md R74, 60_exceptions.md R150, R151): it holds after reset, every
instruction that was fetched keeps it, and so does every event of the host. -/

namespace Sys2Proof.Machine

/-! ### Reset -/

/-- Settles O51: memory is unwritten, the stack empty, no fault recorded. -/
theorem invariantAtReset : Obligations.InvariantAtReset := by
  unfold Obligations.InvariantAtReset
  exact fun font _ _ => ⟨Memory.wf_nil font, show (0x0200 : Word).toNat ≤ 0x10FE by decide,
    fun _ hj => absurd hj (Nat.not_lt_zero _), trivial⟩

theorem pixel_reset (row : Fin 32) (col : Fin 64) : State.reset.fb.pixel row col = false := by
  simp [State.reset, State.initial, Framebuffer.pixel]

/-- Settles O49: nothing has been written, so registers and pixels are 0 and memory reads as the glyphs and zeros. -/
theorem resetState : Obligations.ResetState := by
  unfold Obligations.ResetState
  exact ⟨by decide, rfl, rfl, rfl, by decide, rfl, rfl, by decide, pixel_reset, rfl, rfl, rfl, fun _ => rfl⟩

/-! ### The honest report -/

theorem reportHonest_of_noFault {s : State} (h : NoFault s) : ReportHonest s := by
  rw [ReportHonest, h]
  trivial

/-- No data access set is longer than 16 bytes, so `I` is at least 0xFF1 when one leaves memory (43_index_memory.md R126). -/
theorem reportHonest_memRange {s : State} {m : Nat} (pc : Word) (hm : m ≤ 15) (out : 0xFFF < s.idx.toNat + m) :
    ReportHonest { s with pc := pc, fault := ⟨.memRange, s.rangeAddr⟩ } :=
  ⟨show 0xFF1 ≤ s.idx.toNat by omega, rfl⟩

/-! ### One instruction -/

/-- The state an instruction's handler starts in when the invariant held before the fetch (40_step_control.md R70). -/
structure Fetched (s : State) : Prop where
  memWf : Memory.wf s.font s.mem
  two_le_pc : 2 ≤ s.pc.toNat
  pc_le : s.pc.toNat ≤ 0x1000
  stackBound : ∀ j : Fin 16, j.val < s.sp.val → s.stack[j.val].toNat ≤ 0x1000
  noFault : NoFault s

/-- A fault or a stall takes the fetch advance back without a wrap. -/
theorem Fetched.rewound_pc_le {s : State} (hs : Fetched s) : (s.pc - 2).toNat ≤ 0x10FE := by
  have low := hs.two_le_pc
  have high := hs.pc_le
  bv_omega

theorem Fetched.kept_pc_le {s : State} (hs : Fetched s) : s.pc.toNat ≤ 0x10FE := hs.pc_le.trans (by decide)

/-- A skip goes at most 2 further (41_skips.md R90). -/
theorem Fetched.skipIf_pc_le {s t : State} {c : Bool} (hs : Fetched s) (h : skipIf c s = .next t) : t.pc.toNat ≤ 0x10FE := by
  have high := hs.pc_le
  obtain rfl := Host.Outcome.next.inj ((skipIf_eq c s).symm.trans h)
  cases c
  · exact hs.kept_pc_le
  · show (s.pc + 2).toNat ≤ 0x10FE
    bv_omega

theorem toNat_zext16_addr_le (nnn : Addr12) : (zext16 nnn).toNat ≤ 0xFFF := by
  have := nnn.isLt
  simp only [zext16, BitVec.toNat_setWidth]
  omega

/-- The largest jump is to 0xFFF plus a register (40_step_control.md R78). -/
theorem toNat_jumpOffset_le (nnn : Addr12) (b : Byte) : (zext16 nnn + zext16 b).toNat ≤ 0x10FE := by
  have := nnn.isLt
  have := b.isLt
  simp only [zext16, BitVec.toNat_add, BitVec.toNat_setWidth]
  omega

section
variable {i : Instr} {s t : State} (hs : Fetched s) (h : exec i s = .next t)
include hs h

/-- Only the two stores write memory, and inside it. -/
theorem exec_memWf : Memory.wf t.font t.mem := by
  have store (bs : List Byte) (inside : s.idx.toNat + bs.length ≤ 0x1000) :
      Memory.wf s.font (Memory.writeList s.font s.mem s.idx.toNat bs) := Memory.writeList_wf _ _ _ _ inside hs.memWf
  cases i with
  | ldB x =>
    rcases execLdB_cases h with ⟨inside, rfl⟩ | ⟨_, rfl⟩
    · exact store _ (by rw [bcdDigits_length]; omega)
    · exact hs.memWf
  | storeRegs x =>
    rcases execStoreRegs_cases h with ⟨inside, rfl⟩ | ⟨_, rfl⟩
    · exact store _ (by rw [regsUpTo_length]; omega)
    · exact hs.memWf
  | _ =>
    rw [exec_writesOnly h]
    exact hs.memWf

/-- `pc` stays at `a + 2` or goes back to `a`, skips, jumps, or returns to an entry in use. -/
theorem exec_pc_le : t.pc.toNat ≤ 0x10FE := by
  cases i with
  | jp nnn =>
    obtain rfl := Host.Outcome.next.inj h
    exact (toNat_zext16_addr_le nnn).trans (by decide)
  | jpV0 nnn =>
    obtain rfl := Host.Outcome.next.inj h
    exact toNat_jumpOffset_le nnn _
  | call nnn =>
    rcases execCall_cases h with ⟨_, rfl⟩ | ⟨_, rfl⟩
    · exact (toNat_zext16_addr_le nnn).trans (by decide)
    · exact hs.rewound_pc_le
  | ret =>
    rcases execRet_cases h with ⟨used, rfl⟩ | ⟨_, rfl⟩
    · exact (hs.stackBound ⟨s.sp.val - 1, by omega⟩ (Nat.sub_lt used (by decide))).trans (by decide)
    · exact hs.rewound_pc_le
  | seImm _ _ | sneImm _ _ | seReg _ _ | sneReg _ _ | skp _ | sknp _ => exact hs.skipIf_pc_le h
  | ldVxK x =>
    rcases execLdVxK_cases h with ⟨_, rfl⟩ | ⟨_, _, rfl⟩
    exacts [hs.rewound_pc_le, hs.kept_pc_le]
  | drw x y n =>
    rcases execDrw_cases h with ⟨_, rfl⟩ | ⟨_, _, rfl⟩ | ⟨_, _, _, rfl⟩
    exacts [hs.rewound_pc_le, hs.kept_pc_le, hs.rewound_pc_le]
  | ldB x =>
    rcases execLdB_cases h with ⟨_, rfl⟩ | ⟨_, rfl⟩
    exacts [hs.kept_pc_le, hs.rewound_pc_le]
  | storeRegs x =>
    rcases execStoreRegs_cases h with ⟨_, rfl⟩ | ⟨_, rfl⟩
    exacts [hs.kept_pc_le, hs.rewound_pc_le]
  | loadRegs x =>
    rcases execLoadRegs_cases h with ⟨_, rfl⟩ | ⟨_, rfl⟩
    exacts [hs.kept_pc_le, hs.rewound_pc_le]
  | _ =>
    rw [exec_writesOnly h]
    exact hs.kept_pc_le

/-- CALL pushes `a + 2` on the entries in use, RET leaves fewer of them. -/
theorem exec_stackBound (j : Fin 16) (used : j.val < t.sp.val) : t.stack[j.val].toNat ≤ 0x1000 := by
  cases i with
  | call nnn =>
    rcases execCall_cases h with ⟨free, rfl⟩ | ⟨_, rfl⟩
    · by_cases top : s.sp.val = j.val
      · simpa [top] using hs.pc_le
      · have below : j.val < s.sp.val := by simp at used; omega
        simpa [Vector.getElem_set, top] using hs.stackBound j below
    · exact hs.stackBound j used
  | ret =>
    rcases execRet_cases h with ⟨_, rfl⟩ | ⟨_, rfl⟩
    · exact hs.stackBound j (Nat.lt_of_lt_of_le used (Nat.sub_le _ _))
    · exact hs.stackBound j used
  | _ =>
    rw [exec_writesOnly h] at used ⊢
    exact hs.stackBound j used

/-- Only CALL, RET and the accesses to memory record a fault, each in the state its code describes. -/
theorem exec_reportHonest : ReportHonest t := by
  cases i with
  | call nnn =>
    rcases execCall_cases h with ⟨_, rfl⟩ | ⟨full, rfl⟩
    exacts [reportHonest_of_noFault hs.noFault, ⟨full, rfl⟩]
  | ret =>
    rcases execRet_cases h with ⟨_, rfl⟩ | ⟨empty, rfl⟩
    exacts [reportHonest_of_noFault hs.noFault, ⟨empty, rfl⟩]
  | ldB x =>
    rcases execLdB_cases h with ⟨_, rfl⟩ | ⟨out, rfl⟩
    exacts [reportHonest_of_noFault hs.noFault, reportHonest_memRange _ (by decide) out]
  | storeRegs x =>
    rcases execStoreRegs_cases h with ⟨_, rfl⟩ | ⟨out, rfl⟩
    exacts [reportHonest_of_noFault hs.noFault, reportHonest_memRange _ (by omega) out]
  | loadRegs x =>
    rcases execLoadRegs_cases h with ⟨_, rfl⟩ | ⟨out, rfl⟩
    exacts [reportHonest_of_noFault hs.noFault, reportHonest_memRange _ (by omega) out]
  | drw x y n =>
    rcases execDrw_cases h with ⟨_, rfl⟩ | ⟨_, _, rfl⟩ | ⟨_, _, out, rfl⟩
    exacts [reportHonest_of_noFault hs.noFault, reportHonest_of_noFault hs.noFault, reportHonest_memRange _ (by omega) out]
  | _ =>
    rw [exec_writesOnly h]
    exact reportHonest_of_noFault hs.noFault

theorem exec_invariant : Invariant t :=
  ⟨exec_memWf hs h, exec_pc_le hs h, exec_stackBound hs h, exec_reportHonest hs h⟩

end

/-! ### One event -/

/-- What was fetched runs in a state the handlers can start in: the fetch is refused above 0xFFE (20_memory.md R36). -/
theorem Invariant.advance {s : State} (hs : Invariant s) (noFault : NoFault s) (inside : s.pc.toNat ≤ 0xFFE) :
    Fetched s.advance where
  memWf := hs.memWf
  two_le_pc := by rw [State.advance_pc]; bv_omega
  pc_le := by rw [State.advance_pc]; bv_omega
  stackBound := hs.stackBound
  noFault := noFault

theorem Invariant.consume {s : State} (hs : Invariant s) : Invariant s.consume :=
  ⟨hs.memWf, hs.pcBound, hs.stackBound, hs.report⟩

theorem Invariant.stepEvent {s t : State} (hs : Invariant s) (h : stepEvent s = .next t) : Invariant t := by
  unfold Machine.stepEvent at h
  by_cases noFault : s.fault.code = .none
  · rw [if_pos noFault] at h
    by_cases inside : s.pc.toNat ≤ 0xFFE
    · rw [fetch_of_le inside] at h
      exact exec_invariant (hs.advance noFault inside) h
    · have out : 0xFFE < s.pc.toNat := Nat.lt_of_not_le inside
      rw [fetch_of_gt out] at h
      obtain rfl := Host.Outcome.next.inj h
      exact ⟨hs.memWf, hs.pcBound, hs.stackBound, ⟨out, rfl⟩⟩
  · rw [if_neg noFault] at h
    obtain rfl := Host.Outcome.next.inj h
    exact hs

/-- An image that is not refused ends inside memory (70_reset_and_hazards.md R181). -/
theorem Invariant.onLoad {s : State} (hs : Invariant s) (image : List Byte) : Invariant (onLoad image s) := by
  unfold Machine.onLoad
  split
  case isTrue => exact ⟨hs.memWf, hs.pcBound, hs.stackBound, hs.report⟩
  case isFalse fits =>
    have inside : Config.progBase + image.length ≤ Config.memSize := by
      simp only [Config.progMax, Config.progBase, Config.memSize] at *
      omega
    exact ⟨Memory.writeList_wf _ _ _ _ inside hs.memWf, hs.pcBound, hs.stackBound, hs.report⟩

/-- The fields the model keeps over a reset are none the invariant speaks of. -/
theorem invariant_onReset (straps : Quirks) (s : State) : Invariant (onReset straps s) := by
  obtain ⟨memWf, pcBound, stackBound, report⟩ := invariantAtReset s.font straps s.hostOrder
  exact ⟨memWf, pcBound, stackBound, report⟩

theorem Invariant.runEvent {e : Event} {s t : State} (hs : Invariant s) (h : runEvent e s = .next t) : Invariant t := by
  cases e with
  | step => exact hs.stepEvent h
  | load image =>
    obtain rfl := Host.Outcome.next.inj h
    exact hs.onLoad image
  | reset straps =>
    obtain rfl := Host.Outcome.next.inj h
    exact invariant_onReset straps s
  | tick | keyDown _ | keyUp _ | frameTick =>
    obtain rfl := Host.Outcome.next.inj h
    exact ⟨hs.memWf, hs.pcBound, hs.stackBound, hs.report⟩

/-- Settles O52: taking the event off the order keeps the invariant, and so does the event. -/
theorem invariantKept : Obligations.InvariantKept := by
  unfold Obligations.InvariantKept
  exact fun _ _ hs h => hs.consume.runEvent h

end Sys2Proof.Machine
end

section
/-! Memory (20_memory.md): a fetch outside it faults (R36), only the two stores change it (R35, R41), and every later fetch sees what
they stored (R37, R39). -/

namespace Sys2Proof.Machine

/-! ### A fetch outside memory -/

/-- Settles O8: the fetch raises the fault before the advance, so the state is the one the step began with. -/
theorem fetchOutOfRange : Obligations.FetchOutOfRange := by
  unfold Obligations.FetchOutOfRange
  intro s next noFault out
  have hf : fetch s.consume = .error ⟨.fetchRange, s.pc⟩ := fetch_of_gt out
  have nf : s.consume.fault.code = .none := noFault
  rw [step_of_stepIsNext next, stepEvent, if_pos nf, hf]
  exact takeFault_eq _ _

/-! ### Only the stores change memory -/

section
variable {i : Instr} {s t : State} (h : exec i s = .next t) (ne : ∀ x, i ≠ .ldB x ∧ i ≠ .storeRegs x)
include h ne

theorem exec_mem : t.mem = s.mem := by
  cases i with
  | ldB x => exact absurd rfl (ne x).1
  | storeRegs x => exact absurd rfl (ne x).2
  | _ => exact (congrArg State.mem (exec_writesOnly h) :)

/-- What a byte reads as depends on memory and the glyph table only (20_memory.md R32). -/
theorem exec_readByte (a : Nat) : t.readByte a = s.readByte a := by
  simp only [State.readByte, exec_mem h ne, exec_font h]

end

/-- Settles O54: the table of writes lists memory for the two stores only. -/
theorem memoryFrame : Obligations.MemoryFrame := by
  unfold Obligations.MemoryFrame
  exact fun _ _ _ h ne => ⟨exec_mem h ne, exec_readByte h ne⟩

/-! ### A fetch sees what was stored -/

/-- The word fetched, from the bytes memory reads as, the first in the high half (20_memory.md R33, R36). -/
theorem fetch_of_readByte {u : State} {read : Nat → Byte} (same : ∀ a, u.readByte a = read a) (inside : u.pc.toNat ≤ 0xFFE) :
    fetch u = .ok (BitVec.ofNat 16 ((read u.pc.toNat).toNat * 256 + (read (u.pc.toNat + 1)).toNat)) := by
  rw [fetch_of_le inside, same, same, ← toNat_wordOfBytes, BitVec.ofNat_toNat, BitVec.setWidth_eq]

/-- The digits are below 256, so each byte holds its digit exactly (43_index_memory.md R123). -/
theorem bcdDigits_getElem {v : Byte} {b : Nat → Byte} (hundreds : (b 0).toNat = v.toNat / 100)
    (tens : (b 1).toNat = v.toNat / 10 % 10) (units : (b 2).toNat = v.toNat % 10) (j : Nat) (hj : j < (bcdDigits v).length) :
    (bcdDigits v)[j] = b j := by
  have toNat_digit (c : Byte) {d : Nat} (h : c.toNat = d) : BitVec.ofNat 8 d = c := by
    rw [← h, BitVec.ofNat_toNat, BitVec.setWidth_eq]
  match j, hj with
  | 0, _ => exact toNat_digit _ hundreds
  | 1, _ => exact toNat_digit _ tens
  | 2, _ => exact toNat_digit _ units

theorem exec_ldB_readByte {x : Reg} {s : State} {b : Nat → Byte}
    (digits : ∀ j (hj : j < (bcdDigits (s.getV x)).length), (bcdDigits (s.getV x))[j] = b j)
    (inside : s.idx.toNat + 3 ≤ 0x1000) :
    ∃ t, exec (.ldB x) s = .next t ∧ ∀ k, t.readByte k = storedOver s.readByte s.idx.toNat 3 b k :=
  ⟨_, execLdB_of_le x (by omega), readByte_storeBytes_eq_storedOver s _ _ b digits⟩

theorem exec_storeRegs_readByte {x : Reg} {s : State} {b : Nat → Byte} (regs : ∀ r : Reg, b r.val = s.getV r)
    (inside : s.idx.toNat + (x.val + 1) ≤ 0x1000) :
    ∃ t, exec (.storeRegs x) s = .next t ∧ ∀ k, t.readByte k = storedOver s.readByte s.idx.toNat (x.val + 1) b k := by
  refine ⟨_, execStoreRegs_of_le (by omega), fun k => ?_⟩
  have stored (j : Nat) (hj : j < (regsUpTo s x).length) : (regsUpTo s x)[j] = b j := by
    have hj' : j < 16 := by rw [regsUpTo_length] at hj; omega
    exact (regsUpTo_getElem s x j hj).trans (regs ⟨j, hj'⟩).symm
  rw [← regsUpTo_length s x]
  exact readByte_storeBytes_eq_storedOver s _ _ b stored k

/-- Settles O33: each store leaves memory with its bytes over what it read as, and a fetch depends on what memory reads as only. -/
theorem fetchSeesStore : Obligations.FetchSeesStore := by
  unfold Obligations.FetchSeesStore
  intro x s i n b store inside
  have completes : ∃ t, exec i s = .next t ∧ ∀ k, t.readByte k = storedOver s.readByte s.idx.toNat n b k := by
    rcases store with ⟨rfl, rfl, regs⟩ | ⟨rfl, rfl, hundreds, tens, units⟩
    · exact exec_storeRegs_readByte regs inside
    · exact exec_ldB_readByte (bcdDigits_getElem hundreds tens units) inside
  obtain ⟨t, run, reads⟩ := completes
  exact ⟨t, run, fun u same => fetch_of_readByte fun a => (same a).trans (reads a)⟩

end Sys2Proof.Machine
end

section
/-! The decoder and the encoder are inverse to each other (30_encoding.md R51, R56), the decoder follows the opcode map (R54), and
which words no pattern of it matches (R56, R57). -/

namespace Sys2Proof

/-! ### The word of its fields (R51, R52) -/

theorem fieldOp_lt (w : Word) : fieldOp w < 16 := by
  have := w.isLt
  rw [fieldOp]
  omega

section
variable {w : Word} {op : Nat} (hop : fieldOp w = op)
include hop

theorem formatA_fields : formatA op (fieldNNN w) = w := by
  obtain rfl := hop
  apply BitVec.eq_of_toNat_eq
  rw [toNat_formatA (fieldOp_lt w), fieldOp, fieldNNN, BitVec.toNat_setWidth]
  omega

theorem formatI_fields {kk : Byte} (hkk : fieldKK w = kk) : formatI op (fieldX w) kk = w := by
  obtain rfl := hop
  obtain rfl := hkk
  apply BitVec.eq_of_toNat_eq
  rw [toNat_formatI (fieldOp_lt w), fieldKK, BitVec.toNat_setWidth]
  simp only [fieldOp, fieldX]
  omega

theorem formatR_fields {low : Fin 16} (hn : fieldN w = low) : formatR op (fieldX w) (fieldY w) low = w := by
  obtain rfl := hop
  obtain rfl := hn
  apply BitVec.eq_of_toNat_eq
  rw [toNat_formatR (fieldOp_lt w)]
  simp only [fieldOp, fieldX, fieldY, fieldN]
  omega

end

/-! ### The words no pattern matches (R56) -/

theorem fieldN_ne_zero_iff (w : Word) : fieldN w ≠ 0 ↔ w.toNat % 16 ≠ 0 := by
  rw [Ne, Fin.ext_iff]
  rfl

theorem toNat_fieldKK (w : Word) : (fieldKK w).toNat = w.toNat % 256 := by
  rw [fieldKK, BitVec.toNat_setWidth]

/-- The check of well-formedness in terms of the fields. -/
theorem unrecognised_iff (w : Word) : unrecognised w = true ↔
    (fieldOp w = 5 ∧ fieldN w ≠ 0) ∨
    (fieldOp w = 8 ∧ (fieldN w).val ∈ [8, 9, 0xA, 0xB, 0xC, 0xD, 0xF]) ∨
    (fieldOp w = 9 ∧ fieldN w ≠ 0) ∨
    (fieldOp w = 0xE ∧ fieldKK w ∉ [0x9E, 0xA1]) ∨
    (fieldOp w = 0xF ∧ fieldKK w ∉ [0x07, 0x0A, 0x15, 0x18, 0x1E, 0x29, 0x33, 0x55, 0x65]) := by
  have low : (7 < w.toNat % 16 ∧ w.toNat % 16 ≠ 14) ↔ (fieldN w).val ∈ [8, 9, 0xA, 0xB, 0xC, 0xD, 0xF] := by
    simp only [fieldN, List.mem_cons, List.not_mem_nil, or_false]
    omega
  simp only [fieldN_ne_zero_iff, ← low]
  simp [unrecognised, fieldOp, ← BitVec.toNat_inj, toNat_fieldKK, or_assoc]

/-! ### Decoding what was encoded -/

theorem decodeWord_of_unrecognised {w : Word} (h : unrecognised w = true) : decodeWord w = .unknown w := by
  rcases (unrecognised_iff w).mp h with ⟨hop, hn⟩ | ⟨hop, hn⟩ | ⟨hop, hn⟩ | ⟨hop, hkk⟩ | ⟨hop, hkk⟩
  · simp [decodeWord, hop, hn]
  · simp only [List.mem_cons, List.not_mem_nil, or_false] at hn
    rcases hn with hn | hn | hn | hn | hn | hn | hn <;> simp [decodeWord, decode8, hop, hn]
  · simp [decodeWord, hop, hn]
  · simp_all [decodeWord, decodeE]
  · simp_all [decodeWord, decodeF]

/-- Of the words with top nibble 0 only CLS and RET are not SYS (R57). -/
theorem decodeWord_of_fieldOp_zero {w : Word} (hop : fieldOp w = 0) (neCls : w ≠ 0x00E0) (neRet : w ≠ 0x00EE) :
    decodeWord w = .sys (fieldNNN w) := by
  simp only [decodeWord, hop, decode0, if_neg neCls, if_neg neRet]

theorem formatA_inj {op : Nat} (hop : op < 16) {a b : Addr12} : formatA op a = formatA op b ↔ a = b :=
  ⟨fun h => by simpa [hop] using congrArg fieldNNN h, congrArg _⟩

/-- The check of well-formedness in terms of the word. -/
theorem sysOperand_iff (nnn : Addr12) : sysOperand nnn = true ↔ formatA 0 nnn ≠ 0x00E0 ∧ formatA 0 nnn ≠ 0x00EE := by
  rw [show (0x00E0 : Word) = formatA 0 0x0E0 from rfl, show (0x00EE : Word) = formatA 0 0x0EE from rfl]
  simp [sysOperand, formatA_inj]

theorem decodeWord_sys {nnn : Addr12} (h : sysOperand nnn = true) : decodeWord (formatA 0 nnn) = .sys nnn := by
  obtain ⟨neCls, neRet⟩ := (sysOperand_iff nnn).mp h
  rw [decodeWord_of_fieldOp_zero (by simp) neCls neRet, fieldNNN_formatA (by decide)]

/-- Settles O2, row by row: the fields of the word are the operands. Only SYS and the catch-all need well-formedness. -/
theorem decodeEncode : Obligations.DecodeEncode := by
  unfold Obligations.DecodeEncode
  intro i wf
  cases i with
  | cls | ret => rfl
  | sys nnn => exact decodeWord_sys wf
  | unknown w => exact decodeWord_of_unrecognised wf
  | jp _ | call _ | ldI _ | jpV0 _ => simp [encode, decodeWord]
  | seImm _ _ | sneImm _ _ | ldImm _ _ | addImm _ _ | rnd _ _ => simp [encode, decodeWord]
  | seReg _ _ | sneReg _ _ | drw _ _ _ => simp [encode, decodeWord]
  | ldReg _ _ | orReg _ _ | andReg _ _ | xorReg _ _ | addReg _ _ | subReg _ _ | shr _ _ | subn _ _ | shl _ _ =>
    simp [encode, decodeWord, decode8]
  | skp _ | sknp _ => simp [encode, decodeWord, decodeE]
  | ldVxDt _ | ldVxK _ | ldDtVx _ | ldStVx _ | addI _ | ldF _ | ldB _ | storeRegs _ | loadRegs _ =>
    simp [encode, decodeWord, decodeF]

/-! ### Encoding what was decoded -/

/-- The instruction is one of the machine, and its word is `w`. -/
structure Instr.Reads (i : Instr) (w : Word) : Prop where
  wellFormed : i.wellFormed = true
  encode : encode i = w

theorem Instr.unknown_reads {w : Word} (h : unrecognised w = true) : (Instr.unknown w).Reads w := ⟨h, rfl⟩

theorem Instr.sys_reads {w : Word} (hop : fieldOp w = 0) (neCls : w ≠ 0x00E0) (neRet : w ≠ 0x00EE) :
    (Instr.sys (fieldNNN w)).Reads w := by
  have word : formatA 0 (fieldNNN w) = w := formatA_fields hop
  exact ⟨(sysOperand_iff _).mpr (by rw [word]; exact ⟨neCls, neRet⟩), word⟩

theorem decode0_reads {w : Word} (hop : fieldOp w = 0) : (decode0 w).Reads w := by
  unfold decode0
  split_ifs with hcls hret
  · exact ⟨rfl, hcls.symm⟩
  · exact ⟨rfl, hret.symm⟩
  · exact Instr.sys_reads hop hcls hret

theorem decode8_reads {w : Word} (hop : fieldOp w = 8) : (decode8 w).Reads w := by
  unfold decode8
  dsimp only
  split
  case h_10 =>
    have low : (fieldN w).val ∈ [8, 9, 0xA, 0xB, 0xC, 0xD, 0xF] := by
      have := (fieldN w).isLt
      simp only [List.mem_cons, List.not_mem_nil, or_false]
      grind
    exact Instr.unknown_reads ((unrecognised_iff w).mpr (.inr (.inl ⟨hop, low⟩)))
  all_goals
    rename_i hn
    exact ⟨rfl, formatR_fields hop (Fin.ext hn)⟩

theorem decodeE_reads {w : Word} (hop : fieldOp w = 0xE) : (decodeE w).Reads w := by
  unfold decodeE
  split_ifs with h9E hA1
  · exact ⟨rfl, formatI_fields hop h9E⟩
  · exact ⟨rfl, formatI_fields hop hA1⟩
  · exact Instr.unknown_reads (by simp_all [unrecognised_iff])

theorem decodeF_reads {w : Word} (hop : fieldOp w = 0xF) : (decodeF w).Reads w := by
  unfold decodeF
  dsimp only
  split_ifs
  case neg => exact Instr.unknown_reads (by simp_all [unrecognised_iff])
  all_goals exact ⟨rfl, formatI_fields hop ‹_›⟩

theorem decodeWord_reads (w : Word) : (decodeWord w).Reads w := by
  unfold decodeWord
  split
  next hop => exact decode0_reads hop
  next hop => exact ⟨rfl, formatA_fields hop⟩
  next hop => exact ⟨rfl, formatA_fields hop⟩
  next hop => exact ⟨rfl, formatI_fields hop rfl⟩
  next hop => exact ⟨rfl, formatI_fields hop rfl⟩
  next hop =>
    split_ifs with hn
    · exact ⟨rfl, formatR_fields hop hn⟩
    · exact Instr.unknown_reads ((unrecognised_iff w).mpr (.inl ⟨hop, hn⟩))
  next hop => exact ⟨rfl, formatI_fields hop rfl⟩
  next hop => exact ⟨rfl, formatI_fields hop rfl⟩
  next hop => exact decode8_reads hop
  next hop =>
    split_ifs with hn
    · exact ⟨rfl, formatR_fields hop hn⟩
    · exact Instr.unknown_reads ((unrecognised_iff w).mpr (by simp [hop, hn]))
  next hop => exact ⟨rfl, formatA_fields hop⟩
  next hop => exact ⟨rfl, formatA_fields hop⟩
  next hop => exact ⟨rfl, formatI_fields hop rfl⟩
  next hop => exact ⟨rfl, formatR_fields hop rfl⟩
  next hop => exact decodeE_reads hop
  next =>
    have hop : fieldOp w = 15 := by grind [fieldOp_lt w]
    exact decodeF_reads hop

/-- Settles O3, family by family. -/
theorem encodeDecode : Obligations.EncodeDecode := by
  unfold Obligations.EncodeDecode
  exact fun w => ⟨(decodeWord_reads w).wellFormed, (decodeWord_reads w).encode⟩

theorem decodeWord_eq_unknown_iff (w : Word) : decodeWord w = .unknown w ↔ unrecognised w = true :=
  ⟨fun h => by simpa only [h, Instr.wellFormed] using (decodeWord_reads w).wellFormed, decodeWord_of_unrecognised⟩

/-- Settles O5: the words of the catch-all are the unrecognised ones, family 0 is total (R57). -/
theorem unrecognisedWords : Obligations.UnrecognisedWords := by
  unfold Obligations.UnrecognisedWords
  exact fun w => ⟨(decodeWord_eq_unknown_iff w).trans (unrecognised_iff w), decodeWord_of_fieldOp_zero⟩

/-- Settles O1, word by word. -/
theorem decodeSampleWords : Obligations.DecodeSampleWords := by
  unfold Obligations.DecodeSampleWords
  decide

/-! ### The opcode map (R54, R55) -/

theorem row_mem_opcodeTable (i : Instr) : i.row ∈ opcodeTable := by
  cases i <;> simp [Instr.row, opcodeTable]

section
open Laws.RowMatch

theorem row_matches_encode (i : Instr) : i.row.matchesWord (encode i) = true := by
  cases i
  exacts [cls, ret, jp _, call _, seImm _ _, sneImm _ _, seReg _ _, ldImm _ _, addImm _ _, ldReg _ _, orReg _ _, andReg _ _,
    xorReg _ _, addReg _ _, subReg _ _, shr _ _, subn _ _, shl _ _, sneReg _ _, ldI _, jpV0 _, rnd _ _, drw _ _ _, skp _, sknp _,
    ldVxDt _, ldVxK _, ldDtVx _, ldStVx _, addI _, ldF _, ldB _, storeRegs _, loadRegs _, sys _, unknown _]

end

theorem row_matches_decodeWord (w : Word) : (decodeWord w).row.matchesWord w = true := by
  simpa only [(decodeWord_reads w).encode] using row_matches_encode (decodeWord w)

/-- Do two rows agree on the bits both masks keep? Only then can a word match both. -/
def OpcodeRow.overlaps (r r' : OpcodeRow) : Bool := r.value &&& r'.mask == r'.value &&& r.mask

theorem overlaps_of_matchesWord {r r' : OpcodeRow} {w : Word} (h : r.matchesWord w = true) (h' : r'.matchesWord w = true) :
    r.overlaps r' = true := by
  rw [OpcodeRow.matchesWord, beq_iff_eq] at h h'
  rw [OpcodeRow.overlaps, beq_iff_eq, ← h, ← h', BitVec.and_assoc, BitVec.and_assoc, BitVec.and_comm r.mask]

/-- A row may stand above another in the table: where they overlap, its mask has more 1 bits, and either it is CLS or RET above the
row `0nnn`, or the other one is the catch-all. -/
abbrev OpcodeRow.MayPrecede (r r' : OpcodeRow) : Prop :=
  r.overlaps r' = true → r'.weight < r.weight ∧
    (r.mask ≠ 0x0000 ∧ r'.mask = 0x0000 ∨ r' = ⟨0xF000, 0x0000⟩ ∧ (r = ⟨0xFFFF, 0x00E0⟩ ∨ r = ⟨0xFFFF, 0x00EE⟩))

theorem opcodeTable_pairwise : opcodeTable.Pairwise OpcodeRow.MayPrecede := by decide

/-- Every row but the catch-all keeps the fields that tell its words from the unrecognised ones. -/
theorem opcodeTable_recognised : ∀ r ∈ opcodeTable, r.mask ≠ 0x0000 → unrecognised r.value = false ∧
    (r.mask = 0xFFFF ∨ r.mask = 0xF0FF ∨ r.mask = 0xF00F ∧ fieldOp r.value < 14 ∨
      r.mask = 0xF000 ∧ fieldOp r.value ∉ [5, 8, 9, 14, 15]) := by decide

theorem not_unrecognised_of_matchesWord {r : OpcodeRow} {w : Word} (mem : r ∈ opcodeTable) (ne : r.mask ≠ 0x0000)
    (h : r.matchesWord w = true) : unrecognised w = false := by
  obtain ⟨recognised, masks⟩ := opcodeTable_recognised r mem ne
  obtain ⟨m, v⟩ := r
  simp only at recognised masks
  rcases masks with rfl | rfl | ⟨rfl, hop⟩ | ⟨rfl, hop⟩
  · rwa [(matchesWord_FFFF w v).mp h]
  · have hw := (matchesWord_F0FF w v).mp h
    have op : w.toNat / 4096 = v.toNat / 4096 := by omega
    have kk : w.toNat % 256 = v.toNat % 256 := by omega
    have n : w.toNat % 16 = v.toNat % 16 := by omega
    rwa [unrecognised, op, n, kk]
  · have hw := (matchesWord_F00F w v).mp h
    have op : w.toNat / 4096 = v.toNat / 4096 := by omega
    have n : w.toNat % 16 = v.toNat % 16 := by omega
    have ne14 : v.toNat / 4096 ≠ 14 := by rw [fieldOp] at hop; omega
    have ne15 : v.toNat / 4096 ≠ 15 := by rw [fieldOp] at hop; omega
    simpa [unrecognised, op, n, ne14, ne15] using recognised
  · have hw := (matchesWord_F000 w v).mp h
    have op : w.toNat / 4096 = v.toNat / 4096 := by omega
    simp only [fieldOp, List.mem_cons, List.not_mem_nil, or_false, not_or] at hop
    simp [unrecognised, op, hop]

theorem Instr.Reads.unrecognised_of_row {i : Instr} {w : Word} (h : i.Reads w) (catchAll : i.row.mask = 0x0000) :
    unrecognised w = true := by
  obtain ⟨wf, rfl⟩ := h
  cases i with
  | unknown w => exact wf
  | _ => simp [Instr.row] at catchAll

/-- A row above the row of the decoded instruction does not match. -/
theorem not_matchesWord_of_mayPrecede {r : OpcodeRow} {w : Word} (mem : r ∈ opcodeTable)
    (above : r.MayPrecede (decodeWord w).row) : r.matchesWord w = false := by
  by_contra h
  rw [Bool.not_eq_false] at h
  obtain ⟨-, ⟨ne, catchAll⟩ | ⟨sys, whole⟩⟩ := above (overlaps_of_matchesWord h (row_matches_decodeWord w))
  · have recognised := not_unrecognised_of_matchesWord mem ne h
    rw [(decodeWord_reads w).unrecognised_of_row catchAll] at recognised
    cases recognised
  · rcases whole with rfl | rfl
    all_goals
      obtain rfl := (matchesWord_FFFF w _).mp h
      exact absurd sys (by decide)

/-- Settles O4: the table is cut at the row of the decoded instruction; no row above it matches, and those below it that match have
fewer 1 bits in their masks. -/
theorem decodeFollowsOpcodeMap : Obligations.DecodeFollowsOpcodeMap := by
  unfold Obligations.DecodeFollowsOpcodeMap
  intro w
  have matched := row_matches_decodeWord w
  obtain ⟨above, below, table⟩ := List.append_of_mem (row_mem_opcodeTable (decodeWord w))
  have order := opcodeTable_pairwise
  rw [table, List.pairwise_append, List.pairwise_cons] at order
  obtain ⟨-, ⟨row_below, -⟩, above_rest⟩ := order
  have above_no (r : OpcodeRow) (hr : r ∈ above) : r.matchesWord w = false :=
    not_matchesWord_of_mayPrecede (by rw [table]; simp [hr]) (above_rest r hr _ List.mem_cons_self)
  have first : opcodeTable.find? (fun r => r.matchesWord w) = some (decodeWord w).row :=
    List.find?_eq_some_iff_append.mpr ⟨matched, above, below, table, fun r hr => by simp [above_no r hr]⟩
  refine ⟨matched, fun r mem h ne => ?_, first⟩
  rw [table, List.mem_append, List.mem_cons] at mem
  rcases mem with hr | rfl | hr
  · exact absurd h (Bool.eq_false_iff.mp (above_no r hr))
  · exact absurd rfl ne
  · exact (row_below r hr (overlaps_of_matchesWord matched h)).1

end Sys2Proof
end

section
/-! The step cycle (40_step_control.md R70, R71), the no-op instructions (R72, R73) and control transfer (R74 to R78). -/

namespace Sys2Proof.Machine

/-! ### The step cycle -/

/-- A `step` event answers a next state whether it is halted, cannot fetch, or runs an instruction (R70). -/
theorem stepEvent_next (s : State) : ∃ t, stepEvent s = .next t := by
  unfold stepEvent
  split
  · cases fetch s with
    | error f => exact ⟨_, takeFault_eq f s⟩
    | ok w => exact exec_next (decodeWord w) s.advance
  · exact ⟨s, rfl⟩

theorem runEvent_next (e : Event) (s : State) : ∃ t, runEvent e s = .next t := by
  cases e with
  | step => exact stepEvent_next s
  | tick | keyDown _ | keyUp _ | frameTick | load _ | reset _ => exact ⟨_, rfl⟩

/-- Settles O9: a step is one event of the order, and each event answers a next state. -/
theorem everyStepCompletes : Obligations.EveryStepCompletes := by
  unfold Obligations.EveryStepCompletes
  exact fun s => runEvent_next s.event s.consume

/-- Settles O6: the two bytes are the word that the fetch at `pc` answers. -/
theorem stepRunsDecoded : Obligations.StepRunsDecoded := by
  unfold Obligations.StepRunsDecoded
  intro s i next noFault inside decoded
  obtain rfl : decodeWord (wordOfBytes (s.readByte s.pc.toNat) (s.readByte (s.pc.toNat + 1))) = i :=
    congrArg Prod.fst (Except.ok.inj decoded)
  exact step_of_fetch_ok next noFault (fetch_of_le inside)

/-- Settles O12: the placed word is what the fetch answers, and nothing stands in the way of the fetch. -/
theorem placedWordRuns : Obligations.PlacedWordRuns := by
  unfold Obligations.PlacedWordRuns
  exact fun s w => ⟨placeWord s w, withFetchWord_toNat s w, placeWord_pc_le s w,
    step_of_fetch_ok (placeWord_stepIsNext s w) (placeWord_noFault s w) (fetch_placeWord s w)⟩

/-- Settles O36: the frame gate is the first test of a draw, before the range test. -/
theorem drawStalls : Obligations.DrawStalls := by
  unfold Obligations.DrawStalls
  intro x y n s waits notReady
  have gate : frameGate s = true := by simp [frameGate, waits, notReady]
  exact (execDrw_of_gate gate).trans (stall_eq s)

/-! ### No-op instructions -/

/-- Settles O13: the top nibble of a SYS word is 0, so the word is `nnn`. -/
theorem noOpsOnlyReport : Obligations.NoOpsOnlyReport := by
  unfold Obligations.NoOpsOnlyReport
  refine ⟨fun nnn s => ⟨_, encode (.sys nnn), rfl, ?_, rfl⟩, fun _ _ => rfl⟩
  rw [encode, toNat_formatA (by decide), Nat.zero_mul, Nat.zero_add]

/-! ### Jumps -/

theorem toNat_zext16 {k : Nat} (hk : k ≤ 16) (v : BitVec k) : (zext16 v).toNat = v.toNat :=
  BitVec.toNat_setWidth_of_le hk

/-- An offset jump is at most 0xFFF + 0xFF, so the sum does not wrap (R78). -/
theorem toNat_jumpOffset (nnn : Addr12) (b : Byte) : (zext16 nnn + zext16 b).toNat = nnn.toNat + b.toNat := by
  have := nnn.isLt
  have := b.isLt
  rw [BitVec.toNat_add, toNat_zext16 (by decide), toNat_zext16 (by decide)]
  omega

theorem val_jumpReg (s : State) (nnn : Addr12) :
    (jumpReg s nnn).val = if s.quirks.jumpVx then nnn.toNat / 256 else 0 := by
  unfold jumpReg
  split <;> rfl

/-- Settles O14: `nnn` has 12 bits, so it is loaded as it stands. -/
theorem jumpTarget : Obligations.JumpTarget := by
  unfold Obligations.JumpTarget
  exact fun nnn _ => ⟨_, rfl, toNat_zext16 (by decide) nnn, rfl⟩

/-- Settles O15: the strap selects the register, and the sum fits 16 bits. -/
theorem jumpOffsetTarget : Obligations.JumpOffsetTarget := by
  unfold Obligations.JumpOffsetTarget
  exact fun nnn s => ⟨_, jumpReg s nnn, rfl, val_jumpReg s nnn, toNat_jumpOffset nnn _, rfl⟩

/-! ### Call and return -/

theorem execCall_of_lt (nnn : Addr12) {s : State} (free : s.sp.val < 16) :
    execCall nnn s =
      .next { s with stack := s.stack.set s.sp.val s.pc, sp := ⟨s.sp.val + 1, by omega⟩, pc := zext16 nnn } := by
  rw [execCall, State.push_of_lt free]

theorem execCall_of_full (nnn : Addr12) {s : State} (full : s.sp = 16) :
    execCall nnn s = .next { s with pc := s.pc - 2, fault := ⟨.stackOverflow, s.pc - 2⟩ } := by
  rw [execCall, State.push_eq_none.mpr full]
  exact raise_eq _ _ _

/-- The entry RET pops is the one below `sp` (R74). -/
theorem execRet_of_sp {s : State} {j : Fin 16} (used : s.sp.val = j.val + 1) :
    execRet s = .next { s with pc := s.stack[j.val], sp := j.castSucc } := by
  have below : s.sp.val - 1 = j.val := by omega
  rw [execRet, State.pop_of_pos (by omega)]
  simp only [below]
  rfl

theorem execRet_of_empty {s : State} (empty : s.sp = 0) :
    execRet s = .next { s with pc := s.pc - 2, fault := ⟨.stackUnderflow, s.pc - 2⟩ } := by
  rw [execRet, State.pop_eq_none.mpr empty]
  exact raise_eq _ _ _

/-- Settles O16: the push writes the entry `sp` names and no other. -/
theorem callPushes : Obligations.CallPushes := by
  unfold Obligations.CallPushes
  intro nnn s free
  refine ⟨_, execCall_of_lt nnn free, toNat_zext16 (by decide) nnn, rfl, fun j => ?_, rfl⟩
  simp only [Vector.getElem_set, eq_comm]

/-- Settles O17: the pop writes `pc` and `sp` only, so the entry stays in the array. -/
theorem retPops : Obligations.RetPops := by
  unfold Obligations.RetPops
  exact fun s j used => ⟨_, execRet_of_sp used, rfl, rfl, rfl⟩

/-- Settles O18: the push and the pop that cannot be done raise their fault before any effect. -/
theorem stackFaults : Obligations.StackFaults := by
  unfold Obligations.StackFaults
  exact ⟨fun nnn _ full => execCall_of_full nnn full, fun _ empty => execRet_of_empty empty⟩

/-- Settles O19: RET pops the entry that the CALL wrote. -/
theorem callReturnRoundTrip : Obligations.CallReturnRoundTrip := by
  unfold Obligations.CallReturnRoundTrip
  intro nnn s t u notFull call sameSp sameStack
  have free : s.sp.val < 16 := Fin.val_lt_last notFull
  obtain rfl := Host.Outcome.next.inj ((execCall_of_lt nnn free).symm.trans call)
  have used : u.sp.val = s.sp.val + 1 := congrArg Fin.val sameSp
  refine ⟨_, execRet_of_sp (j := ⟨s.sp.val, free⟩) used, ?_, rfl⟩
  simp only [sameStack, Vector.getElem_set_self]

end Sys2Proof.Machine
end

section
/-! The register skips (41_skips.md R90 to R94). -/

namespace Sys2Proof.Machine

/-- A skip whose test decides `p` goes 2 further exactly when `p` holds (41_skips.md R90). -/
theorem skipIf_of_iff {c : Bool} {p : Prop} [Decidable p] (s : State) (h : c = true ↔ p) :
    skipIf c s = .next { s with pc := if p then s.pc + 2 else s.pc } := by
  simp only [skipIf_eq, h]

/-- Settles O20: the tests of the four skips decide equality and inequality of the two bytes. -/
theorem registerSkips : Obligations.RegisterSkips := by
  unfold Obligations.RegisterSkips
  exact fun x y kk s =>
    ⟨skipIf_of_iff s beq_iff_eq, skipIf_of_iff s bne_iff_ne, skipIf_of_iff s beq_iff_eq, skipIf_of_iff s bne_iff_ne⟩

end Sys2Proof.Machine
end

section
/-! Register loads, arithmetic, logic, shifts and the random byte (42_alu.md R101 to R113). -/

namespace Sys2Proof.Machine

/-! ### Result and flag (R101) -/

theorem State.getV_setWithFlag_VF (s : State) (x : Reg) (b : Byte) (f : Bool) : (s.setWithFlag x b f).getV 15 = flagByte f := by
  rw [State.getV_setWithFlag, if_pos rfl]

theorem State.getV_setWithFlag_result (s : State) {x : Reg} (b : Byte) (f : Bool) (ne : x ≠ 15) :
    (s.setWithFlag x b f).getV x = b := by
  rw [State.getV_setWithFlag, if_neg ne, if_pos rfl]

theorem State.getV_setWithFlag_other (s : State) {x r : Reg} (b : Byte) (f : Bool) (ne : r ≠ x) (neVF : r ≠ 15) :
    (s.setWithFlag x b f).getV r = s.getV r := by
  rw [State.getV_setWithFlag, if_neg neVF, if_neg ne]

/-- What the flag instructions have in common: the flag in VF, the result in `Vx` unless that is VF, nothing else. -/
theorem next_setWithFlag (s : State) (x : Reg) {b flag : Byte} {f : Bool} {n : Nat} (hflag : flagByte f = flag)
    (hresult : b.toNat = n) :
    ∃ t, (.next (s.setWithFlag x b f) : Outcome) = .next t ∧ t.getV 15 = flag ∧ (x ≠ 15 → (t.getV x).toNat = n) ∧
      (∀ r, r ≠ x → r ≠ 15 → t.getV r = s.getV r) ∧ t = { s with v := t.v } := by
  refine ⟨_, rfl, ?_, fun ne => ?_, fun r => s.getV_setWithFlag_other b f, rfl⟩
  · rw [State.getV_setWithFlag_VF, hflag]
  · rw [State.getV_setWithFlag_result s b f ne, hresult]

/-! ### The flags and results as numbers -/

/-- R108. -/
theorem flagByte_carryOut (a b : Byte) : flagByte (carryOut a b) = if 255 < a.toNat + b.toNat then 1 else 0 := by
  simp [flagByte, carryOut]

/-- R109, R111. -/
theorem flagByte_noBorrow (a b : Byte) : flagByte (noBorrow a b) = if b.toNat ≤ a.toNat then 1 else 0 := by
  simp [flagByte, noBorrow]

theorem toNat_flagByte (f : Bool) : (flagByte f).toNat = f.toNat := by
  cases f <;> rfl

/-- Bit 0 is the remainder a right shift drops (R110). -/
theorem toNat_flagByte_shrOut (b : Byte) : (flagByte (shrOut b)).toNat = b.toNat % 2 := by
  rw [toNat_flagByte, shrOut, BitVec.getLsbD, Nat.toNat_testBit]
  omega

/-- Bit 7 is the carry a left shift drops (R112). -/
theorem toNat_flagByte_shlOut (b : Byte) : (flagByte (shlOut b)).toNat = b.toNat / 128 := by
  have := b.isLt
  rw [toNat_flagByte, shlOut, BitVec.getLsbD, Nat.toNat_testBit]
  omega

theorem toNat_byte_sub (a b : Byte) : (a - b).toNat = (256 + a.toNat - b.toNat) % 256 := by
  have := b.isLt
  rw [BitVec.toNat_sub]
  omega

theorem toNat_byte_shr_one (b : Byte) : (b >>> 1).toNat = b.toNat / 2 := by
  rw [BitVec.toNat_ushiftRight, Nat.shiftRight_one]

theorem toNat_byte_shl_one (b : Byte) : (b <<< 1).toNat = b.toNat * 2 % 256 := by
  rw [BitVec.toNat_shiftLeft, Nat.shiftLeft_eq]

/-- A masked byte has no bit outside the mask (R113). -/
theorem masked_and_not_mask (b kk : Byte) : b &&& kk &&& ~~~kk = 0 := by
  rw [BitVec.and_assoc, BitVec.and_not_self]
  exact BitVec.and_zero

/-! ### The statements -/

/-- Settles O22: one write to `Vx`, and the sum of two bytes is the sum modulo 256. -/
theorem loadsAndImmediateAdd : Obligations.LoadsAndImmediateAdd := by
  unfold Obligations.LoadsAndImmediateAdd
  intro x y kk s
  refine ⟨⟨_, rfl, fun r => s.getV_setV x r kk, rfl⟩, ⟨_, rfl, ?_, fun r ne => s.getV_setV_ne _ ne, rfl⟩,
    ⟨_, rfl, fun r => s.getV_setV x r (s.getV y), rfl⟩⟩
  rw [State.getV_setV_same, BitVec.toNat_add]

/-- Settles O23: each logic instruction is the same write, of its own result. -/
theorem logicResults : Obligations.LogicResults := by
  unfold Obligations.LogicResults
  intro x y s i res hi
  have run : exec i s = .next (s.setLogic x res) := by
    rcases hi with ⟨rfl, rfl⟩ | ⟨rfl, rfl⟩ | ⟨rfl, rfl⟩ <;> rfl
  exact ⟨_, run, fun r => s.getV_setLogic x r res, s.setLogic_frame x res⟩

/-- Settles O24: the flag is the carry of the sum, or that the difference needs no borrow. -/
theorem addSubtractResults : Obligations.AddSubtractResults := by
  unfold Obligations.AddSubtractResults
  rintro x y s _ _ rfl rfl
  exact ⟨next_setWithFlag s x (flagByte_carryOut _ _) (BitVec.toNat_add _ _),
    next_setWithFlag s x (flagByte_noBorrow _ _) (toNat_byte_sub _ _),
    next_setWithFlag s x (flagByte_noBorrow _ _) (toNat_byte_sub _ _)⟩

/-- Settles O25: the source is the register the strap selects, and the bit shifted out of it is the flag. -/
theorem shiftResults : Obligations.ShiftResults := by
  unfold Obligations.ShiftResults
  rintro x y s _ rfl
  obtain ⟨t, runShr, flagShr, effectShr⟩ :=
    next_setWithFlag s x (f := shrOut (shiftSource s x y)) rfl (toNat_byte_shr_one (shiftSource s x y))
  obtain ⟨u, runShl, flagShl, effectShl⟩ :=
    next_setWithFlag s x (f := shlOut (shiftSource s x y)) rfl (toNat_byte_shl_one (shiftSource s x y))
  exact ⟨⟨t, runShr, flagShr ▸ toNat_flagByte_shrOut _, effectShr⟩, ⟨u, runShl, flagShl ▸ toNat_flagByte_shlOut _, effectShl⟩⟩

/-- Settles O26: sampling leaves the registers, and the write is of the masked sample. -/
theorem randomMasked : Obligations.RandomMasked := by
  unfold Obligations.RandomMasked
  intro x kk s
  refine ⟨_, rfl, fun r => State.getV_setV _ x r _, ?_, rfl⟩
  rw [State.getV_setV_same, masked_and_not_mask]

end Sys2Proof.Machine
end

section
/-! The index register and the instructions that access data (43_index_memory.md R120 to R126). -/

namespace Sys2Proof.Machine

/-! ### The index register alone -/

/-- Settles O27: `nnn` has 12 bits, so it is loaded as it stands. -/
theorem indexLoad : Obligations.IndexLoad := by
  unfold Obligations.IndexLoad
  exact fun nnn _ => ⟨_, rfl, toNat_zext16 (by decide) nnn, rfl⟩

/-- ADD I is addition modulo 65536 (R121). -/
theorem toNat_add_zext16 (i : Word) (b : Byte) : (i + zext16 b).toNat = (i.toNat + b.toNat) % 65536 := by
  rw [BitVec.toNat_add, toNat_zext16 (by decide)]

/-- Settles O28: the sum of 16-bit words wraps, and the glyph address is never large enough to wrap. -/
theorem indexArithmetic : Obligations.IndexArithmetic := by
  unfold Obligations.IndexArithmetic
  exact fun x s => ⟨⟨_, rfl, toNat_add_zext16 s.idx (s.getV x), rfl⟩, ⟨_, rfl, toNat_glyphAddr (s.getV x), rfl⟩⟩

/-! ### Stores -/

/-- The `j`-th byte of a store stands `j` above its first address (20_memory.md R35). -/
theorem State.readByte_storeBytes_add (s : State) (a : Nat) {bs : List Byte} {j : Nat} (hj : j < bs.length) :
    (s.storeBytes a bs).readByte (a + j) = bs[j] := by
  rw [State.readByte_storeBytes, dif_pos (by omega)]
  simp only [Nat.add_sub_cancel_left]

/-- A stored number below 256 is what its byte reads as. -/
theorem State.toNat_readByte_storeBytes (s : State) (a : Nat) {bs : List Byte} {j n : Nat} (hj : j < bs.length)
    (byte : bs[j] = BitVec.ofNat 8 n) (small : n < 256) : ((s.storeBytes a bs).readByte (a + j)).toNat = n := by
  rw [s.readByte_storeBytes_add a hj, byte, BitVec.toNat_ofNat, Nat.mod_eq_of_lt small]

/-- Settles O29: the three stored bytes are the digits, each of which fits its byte. -/
theorem decimalDigitsStored : Obligations.DecimalDigitsStored := by
  unfold Obligations.DecimalDigitsStored
  rintro x s _ rfl inside
  have isByte := (s.getV x).isLt
  have stored {j : Nat} (hj : j < 3) {digit : Nat} :=
    s.toNat_readByte_storeBytes s.idx.toNat (bs := bcdDigits (s.getV x)) (n := digit) hj
  refine ⟨_, execLdB_of_le x inside, stored (j := 0) (by decide) rfl (by omega), stored (j := 1) (by decide) rfl (by omega),
    stored (j := 2) (by decide) rfl (by omega), fun a out => s.readByte_storeBytes_out _ ?_, rfl⟩
  rw [bcdDigits_length]
  omega

/-- Settles O30: the bytes stored are the registers in order, and `I` is written after the store. -/
theorem registersStored : Obligations.RegistersStored := by
  unfold Obligations.RegistersStored
  intro x s inside
  refine ⟨_, execStoreRegs_of_le inside, fun r le => ?_, fun a out => s.readByte_storeBytes_out _ ?_,
    toNat_idxAfterBlock inside, rfl⟩
  · have hr : r.val < (regsUpTo s x).length := by rw [regsUpTo_length]; exact Nat.lt_succ_of_le le
    exact (s.readByte_storeBytes_add _ hr).trans (regsUpTo_getElem s x r.val hr)
  · rw [regsUpTo_length]
    omega

/-! ### Loads -/

theorem execLoadRegs_of_le {x : Reg} {s : State} (h : s.idx.toNat + x.val ≤ 0xFFF) :
    execLoadRegs x s =
      .next { s with v := fillRegs s.readByte s.idx.toNat (x.val + 1) s.v, idx := idxAfterBlock s x } :=
  withRange_of_le _ h

/-- Settles O31: the block load replaces the registers up to `Vx`, from the bytes at the old `I`. -/
theorem registersLoaded : Obligations.RegistersLoaded := by
  unfold Obligations.RegistersLoaded
  intro x s inside
  refine ⟨_, execLoadRegs_of_le inside, fun r => ?_, toNat_idxAfterBlock inside, fun _ => rfl, rfl⟩
  have upTo : r ≤ x ↔ r.val < x.val + 1 := Nat.lt_succ_iff.symm
  simp only [upTo]
  exact fillRegs_getElem s.readByte s.idx.toNat (x.val + 1) s.v r.val r.isLt

/-! ### Access sets that leave memory -/

theorem execLdB_of_gt {x : Reg} {s : State} (out : 0xFFF < s.idx.toNat + 2) :
    execLdB x s = raise .memRange s.rangeAddr s := withRange_of_gt _ out

theorem execStoreRegs_of_gt {x : Reg} {s : State} (out : 0xFFF < s.idx.toNat + x.val) :
    execStoreRegs x s = raise .memRange s.rangeAddr s := withRange_of_gt _ out

theorem execLoadRegs_of_gt {x : Reg} {s : State} (out : 0xFFF < s.idx.toNat + x.val) :
    execLoadRegs x s = raise .memRange s.rangeAddr s := withRange_of_gt _ out

/-- A draw that does not wait reads its sprite rows, and raises the fault when the last one is outside memory (R126, R132). -/
theorem execDrw_of_gt {x y : Reg} {n : Fin 16} {s : State} {m : Nat} (rows : m + 1 = n.val) (noWait : frameGate s = false)
    (out : 0xFFF < s.idx.toNat + m) : execDrw x y n s = raise .memRange s.rangeAddr s := by
  obtain rfl : m = n.val - 1 := by omega
  rw [execDrw, if_neg (by simp [noWait]), if_neg (by omega), withRange_of_gt _ out]

/-- Settles O32: each of the four instructions makes the range check before any effect. -/
theorem dataOutOfRange : Obligations.DataOutOfRange := by
  unfold Obligations.DataOutOfRange
  intro x y n s i m access out
  have raises : exec i s = raise .memRange s.rangeAddr s := by
    rcases access with ⟨rfl, rfl⟩ | ⟨rfl, rfl⟩ | ⟨rfl, rfl⟩ | ⟨rfl, rows, ready⟩
    · exact execLdB_of_gt out
    · exact execStoreRegs_of_gt out
    · exact execLoadRegs_of_gt out
    · exact execDrw_of_gt rows (by simpa [frameGate] using ready) out
  exact ⟨s.rangeAddr, toNat_rangeAddr s, raises.trans (raise_eq _ _ _)⟩

end Sys2Proof.Machine
end

section
/-! The display (44_display.md R130 to R135): clear, sprite draw, and the `fb_changed` port. -/

namespace Sys2Proof.Machine

/-! ### Clear -/

/-- Settles O34: CLS writes the clear framebuffer and notifies with it. -/
theorem clearScreen : Obligations.ClearScreen := by
  unfold Obligations.ClearScreen
  exact fun _ => ⟨_, rfl, Framebuffer.pixel_clear, rfl, rfl⟩

/-! ### A draw that goes ahead -/

theorem flagByte_eq_one_iff (f : Bool) : flagByte f = 1 ↔ f = true := by
  cases f <;> decide

theorem flagByte_eq_zero_iff (f : Bool) : flagByte f = 0 ↔ f = false := by
  cases f <;> decide

section
variable (x y : Reg) (n : Fin 16) (s : State)

theorem pixel_drawNow_ne_iff (row : Fin 32) (col : Fin 64) :
    (drawNow x y n.val s).fb.pixel row col ≠ s.fb.pixel row col ↔ Covers s x y n.val row col :=
  (drawing_spec x y n s).1 row col

theorem getV_drawNow_VF_eq_one_iff : (drawNow x y n.val s).getV 15 = 1 ↔
    ∃ row col, Covers s x y n.val row col ∧ s.fb.pixel row col = true := by
  rw [getV_drawNow, if_pos rfl, flagByte_eq_one_iff, (drawing_spec x y n s).2]

theorem getV_drawNow_VF_eq_zero_iff : (drawNow x y n.val s).getV 15 = 0 ↔
    ∀ row col, Covers s x y n.val row col → s.fb.pixel row col = false := by
  rw [getV_drawNow, if_pos rfl, flagByte_eq_zero_iff, ← Bool.not_eq_true, (drawing_spec x y n s).2]
  simp only [not_exists, not_and, Bool.not_eq_true]

end

/-- Settles O35, from what `drawing` does to the pixels and to the collision flag. The name `drawSprite` is the model's. -/
theorem drawSpriteFlipsCovered : Obligations.DrawSprite := by
  unfold Obligations.DrawSprite
  intro x y n s noWait inside
  refine ⟨_, execDrw_of_range (frameGate_eq_false.mpr noWait) inside, pixel_drawNow_ne_iff x y n s, ?_,
    fun r neVF => (getV_drawNow x y n.val s r).trans (if_neg neVF), rfl, rfl, rfl⟩
  by_cases lit : ∃ row col, Covers s x y n.val row col ∧ s.fb.pixel row col = true
  · exact .inl ⟨(getV_drawNow_VF_eq_one_iff x y n s).mpr lit, lit⟩
  · have dark : ∀ row col, Covers s x y n.val row col → s.fb.pixel row col = false := by simpa using lit
    exact .inr ⟨(getV_drawNow_VF_eq_zero_iff x y n s).mpr dark, dark⟩

/-- Settles O38: every pixel, covered or not, is dark after CLS. -/
theorem noCollisionAfterClear : Obligations.NoCollisionAfterClear := by
  unfold Obligations.NoCollisionAfterClear
  intro x y n s t u cleared same noWait inside
  obtain rfl := Host.Outcome.next.inj cleared
  refine ⟨_, execDrw_of_range noWait inside, (getV_drawNow_VF_eq_zero_iff x y n u).mpr fun row col _ => ?_⟩
  rw [same]
  exact Framebuffer.pixel_clear row col

/-! ### The same sprite twice -/

/-- What a sprite covers is decided by its bytes, its place and the edge policy (R130 to R132). -/
theorem covers_congr {s u : State} {x y : Reg} {n : Nat} (idx : u.idx = s.idx) (atX : u.getV x = s.getV x)
    (atY : u.getV y = s.getV y) (edge : u.quirks.clip = s.quirks.clip)
    (bytes : ∀ r, r < n → u.readByte (s.idx.toNat + r) = s.readByte (s.idx.toNat + r)) (row : Fin 32) (col : Fin 64) :
    Covers u x y n row col ↔ Covers s x y n row col := by
  unfold Covers
  rw [idx, atX, atY, edge]
  exact exists_congr fun r => and_congr_right fun hr => by rw [bytes r hr]

/-- Two changes of a bit under the same condition cancel. -/
theorem bool_eq_of_changes_iff {a b c : Bool} {P : Prop} (first : b ≠ a ↔ P) (second : c ≠ b ↔ P) : c = a := by
  by_cases changes : P
  · rw [Bool.eq_not_of_ne (second.mpr changes), Bool.eq_not_of_ne (first.mpr changes), Bool.not_not]
  · exact (of_not_not (mt second.mp changes)).trans (of_not_not (mt first.mp changes))

/-- Settles O37: both draws flip the same pixels, and a covered pixel is lit before the second exactly if it was dark before the
first. -/
theorem drawTwiceRestores : Obligations.DrawTwiceRestores := by
  unfold Obligations.DrawTwiceRestores
  intro x y n s t u noWait noWait' inside first fb idx atX atY edge bytes
  obtain rfl := Host.Outcome.next.inj ((execDrw_of_range noWait inside).symm.trans first)
  have same := covers_congr idx atX atY edge bytes
  have flips := pixel_drawNow_ne_iff x y n s
  have flipsAgain := pixel_drawNow_ne_iff x y n u
  simp only [fb, same] at flipsAgain
  refine ⟨_, execDrw_of_range noWait' (idx ▸ inside), Framebuffer.ext_pixel fun row col => ?_, ?_⟩
  · exact bool_eq_of_changes_iff (flips row col) (flipsAgain row col)
  · rw [getV_drawNow_VF_eq_one_iff]
    refine exists_congr fun row => exists_congr fun col => ?_
    rw [same, fb]
    refine and_congr_right fun covered => ?_
    have flipped := (flips row col).mpr covered
    rw [Bool.eq_not_of_ne flipped, Bool.not_eq_true']

/-! ### The port -/

/-- Bit `7 - col mod 8` of the byte of its row that holds column `col` is that pixel (R135). -/
theorem getLsbD_rowByte (bits : BitVec 64) (col : Fin 64) :
    (bits.extractLsb' (56 - 8 * (col.val / 8)) 8).getLsbD (7 - col.val % 8) = bits.getMsbD col.val := by
  have start : 56 - 8 * (col.val / 8) + (7 - col.val % 8) = 64 - 1 - col.val := by omega
  have inByte : 7 - col.val % 8 < 8 := by omega
  rw [BitVec.getLsbD_extractLsb', BitVec.getMsbD, start, decide_eq_true inByte, decide_eq_true col.isLt]

/-- Settles O39: the byte is part `col / 8` of its row, and the pixel is the named bit of it. -/
theorem snapshotLayout : Obligations.SnapshotLayout := by
  unfold Obligations.SnapshotLayout
  exact fun fb row col => ⟨snapshot_length fb, _, snapshot_getElem? fb row (by omega), getLsbD_rowByte fb[row.val] col⟩

/-! ### What is emitted -/

/-- Settles O57: only the rows of CLS, DRW, SYS and UNKNOWN in the table of writes list what was emitted, and a draw that stalls
or faults emits nothing. -/
theorem outputsOfInstructions : Obligations.OutputsOfInstructions := by
  unfold Obligations.OutputsOfInstructions
  intro i s t h
  cases i with
  | cls =>
    obtain rfl := Host.Outcome.next.inj h
    exact .inr (.inl ⟨rfl, .inl rfl⟩)
  | drw x y n =>
    rcases execDrw_cases h with ⟨_, rfl⟩ | ⟨_, _, rfl⟩ | ⟨_, _, _, rfl⟩
    · exact .inl rfl
    · exact .inr (.inl ⟨rfl, .inr ⟨x, y, n, rfl⟩⟩)
    · exact .inl rfl
  | sys nnn =>
    obtain rfl := Host.Outcome.next.inj h
    exact .inr (.inr (.inl ⟨nnn, rfl, rfl⟩))
  | unknown w =>
    obtain rfl := Host.Outcome.next.inj h
    exact .inr (.inr (.inr ⟨w, rfl, rfl⟩))
  | _ => exact .inl (congrArg State.out (exec_writesOnly h) :)

end Sys2Proof.Machine
end

section
/-! The keypad and the timers (45_keypad_timers.md R140 to R145): the key skips, the key wait and the timer moves. -/

namespace Sys2Proof.Machine

/-! ### The key skips -/

/-- Settles O21: the test of each skip is the latch bit of the key in the low 4 bits of `Vx`. -/
theorem keySkips : Obligations.KeySkips := by
  unfold Obligations.KeySkips
  intro x s k low4
  obtain rfl : keyOf (s.getV x) = k := Fin.ext low4.symm
  exact ⟨skipIf_of_iff s Iff.rfl, skipIf_of_iff s (.of_eq (Bool.not_eq_true' _))⟩

/-! ### The key wait -/

theorem execLdVxK_of_lowestKey (x : Reg) {s : State} {k : Fin 16} (lowest : lowestKey s = some k) :
    execLdVxK x s = .next (s.setV x (BitVec.ofNat 8 k.val)) := by
  rw [execLdVxK, lowest]

/-- A stall answers the state before the fetch advance (40_step_control.md R71). -/
theorem stall_advance (s : State) : stall s.advance = .next s :=
  congrArg Host.Outcome.next s.rewind_advance

/-- Settles O40: the key that is down with none below it is the lowest one, and its number fits a byte. -/
theorem keyWaitCompletes : Obligations.KeyWaitCompletes := by
  unfold Obligations.KeyWaitCompletes
  intro x s k down noneBelow
  refine ⟨_, execLdVxK_of_lowestKey x (lowestKey_eq_some.mpr ⟨down, noneBelow⟩), ?_,
    fun r ne => s.getV_setV_ne _ ne, rfl⟩
  rw [State.getV_setV_same, BitVec.toNat_ofNat, Nat.mod_eq_of_lt (by omega)]

/-- Settles O41: no key is down after the fetch advance either, and the stall takes the advance back. -/
theorem keyWaitHolds : Obligations.KeyWaitHolds := by
  unfold Obligations.KeyWaitHolds
  intro x s up
  refine ⟨execLdVxK_of_up x up, fun next noFault fetched => ?_⟩
  calc step s
    _ = exec (decodeWord (encode (.ldVxK x))) s.consume.advance := step_of_fetch_ok next noFault fetched
    _ = execLdVxK x s.consume.advance := by rw [decodeEncode (.ldVxK x) rfl]; rfl
    _ = stall s.consume.advance := execLdVxK_of_up x up
    _ = .next s.consume := stall_advance s.consume

/-! ### The timer moves -/

/-- Settles O42: one write to `Vx`, to `DT` or to `ST`. -/
theorem timerMoves : Obligations.TimerMoves := by
  unfold Obligations.TimerMoves
  exact fun x s => ⟨⟨_, rfl, fun r => s.getV_setV x r s.dt, rfl⟩, rfl, rfl⟩

end Sys2Proof.Machine
end

section
/-! Exceptions and host events (60_exceptions.md): a fault is precise (R151) and halts the core until a reset (R152, R155), and what
`tick`, the key events and `frame_tick` change (R158, R159, R161). -/

namespace Sys2Proof.Machine

/-! ### Faults -/

/-- While a fault is recorded a `step` event does nothing (R152). -/
theorem stepEvent_of_fault {s : State} (faulted : ¬ NoFault s) : stepEvent s = .next s := if_neg faulted

/-- A `step` event that records a fault changes the report only, be it the fetch's fault or an instruction's (R151). -/
theorem stepEvent_precise {s t : State} (noFault : NoFault s) (h : stepEvent s = .next t) (faulted : ¬ NoFault t) :
    t = { s with fault := t.fault } := by
  rw [stepEvent, if_pos noFault] at h
  cases hf : fetch s with
  | error f =>
    rw [hf] at h
    rw [← Host.Outcome.next.inj h]
  | ok w =>
    rw [hf] at h
    rcases exec_fault_cases h with kept | undone
    · have noFault' : NoFault t := (congrArg FaultReport.code kept).trans noFault
      exact absurd noFault' faulted
    · rwa [State.advance_pc, BitVec.add_sub_cancel] at undone

/-- An event other than `reset` leaves a recorded fault as it is (R152, R155). -/
theorem runEvent_keeps_fault {e : Event} {s t : State} (faulted : ¬ NoFault s) (noReset : ∀ straps, e ≠ .reset straps)
    (h : runEvent e s = .next t) : t.fault = s.fault := by
  cases e with
  | reset straps => exact absurd rfl (noReset straps)
  | step =>
    rw [← Host.Outcome.next.inj ((stepEvent_of_fault faulted).symm.trans h)]
  | load image =>
    rw [← Host.Outcome.next.inj h, onLoad]
    split <;> rfl
  | tick | keyDown _ | keyUp _ | frameTick =>
    rw [← Host.Outcome.next.inj h]
    rfl

/-- Settles O10: taking the event off the order touches no field of the core, and the `step` event is precise. -/
theorem faultsArePrecise : Obligations.FaultsArePrecise := by
  unfold Obligations.FaultsArePrecise
  intro s t next noFault h faulted
  rw [step_of_stepIsNext next] at h
  exact stepEvent_precise (s := s.consume) noFault h faulted

/-- Settles O11: taking the event off the order keeps the report, and so does every event but `reset`. -/
theorem onlyResetClearsFault : Obligations.OnlyResetClearsFault := by
  unfold Obligations.OnlyResetClearsFault
  exact fun s _ faulted noReset h => runEvent_keeps_fault (s := s.consume) faulted noReset h

/-- Settles O7: what is left of a halted `step` is that its event was taken. -/
theorem faultHaltsCore : Obligations.FaultHaltsCore := by
  unfold Obligations.FaultHaltsCore
  exact fun s next faulted => (step_of_stepIsNext next).trans (stepEvent_of_fault (s := s.consume) faulted)

/-! ### Host events -/

/-- A timer counts down by 1 and stops at 0, as the subtraction of natural numbers does (R158). -/
theorem toNat_countDown (b : Byte) : (countDown b).toNat = b.toNat - 1 := by
  unfold countDown
  split
  case isTrue zero => rw [zero]; rfl
  case isFalse nonzero => bv_omega

/-- Settles O43: both timers count down, whatever the fault report says. -/
theorem tickCountsDown : Obligations.TickCountsDown := by
  unfold Obligations.TickCountsDown
  exact fun s h => ⟨onTick s.consume, step_of_event h, toNat_countDown s.dt, toNat_countDown s.st, rfl⟩

/-- Writing one bit of the latch leaves the other bits (R159). -/
theorem getElem_set_key (key : Vector Bool 16) (k j : Fin 16) (b : Bool) :
    (key.set k.val b)[j.val] = if j = k then b else key[j.val] := by
  simp only [Vector.getElem_set, Fin.ext_iff, eq_comm]

/-- Settles O44: each key event writes the one bit of the latch that `k` names. -/
theorem keyEvents : Obligations.KeyEvents := by
  unfold Obligations.KeyEvents
  exact fun s k =>
    ⟨fun h => ⟨onKeyDown k s.consume, step_of_event h, fun j => getElem_set_key s.key k j true, rfl⟩,
     fun h => ⟨onKeyUp k s.consume, step_of_event h, fun j => getElem_set_key s.key k j false, rfl⟩⟩

/-- Settles O45: the event is one write, of the flag. -/
theorem frameTick : Obligations.FrameTick := by
  unfold Obligations.FrameTick
  exact fun _ h => step_of_event h

end Sys2Proof.Machine
end

section
/-! Reset, load and the end of a program (70_reset_and_hazards.md): what `load` and `reset` leave (R180, R181), that the word
fetched after both is the image's first (R182), and that a finished program stays where it is (R188). -/

namespace Sys2Proof.Machine

/-! ### Load -/

/-- An image that fits is stored from 0x200 up, and that is all the event does (R181). -/
theorem step_of_load_fits {s : State} {image : List Byte} (next : s.event = .load image) (fits : image.length ≤ 3584) :
    step s = .next (s.consume.storeBytes 0x200 image) :=
  (step_of_event next).trans (congrArg Host.Outcome.next (if_neg fits.not_gt))

/-- A longer image is reported and not stored (R153). -/
theorem step_of_load_tooLong {s : State} {image : List Byte} (next : s.event = .load image) (tooLong : 3584 < image.length) :
    step s = .next (s.consume.emit .loadFail) :=
  (step_of_event next).trans (congrArg Host.Outcome.next (if_pos tooLong))

/-- Settles O46: a load is one store of the image at 0x200, or one `load_fail`. -/
theorem loadImage : Obligations.LoadImage := by
  unfold Obligations.LoadImage
  refine fun s image next => ⟨fun fits => ⟨_, step_of_load_fits next fits, fun j hj => ?_, fun a out => ?_, rfl⟩,
    step_of_load_tooLong next⟩
  · rw [State.readByte_storeBytes_add _ _ hj]
    exact List.getElem?_eq_getElem hj
  · exact s.consume.readByte_storeBytes_out image out

/-! ### Reset -/

theorem step_of_reset {s : State} {straps : Quirks} (next : s.event = .reset straps) :
    step s = .next (onReset straps s.consume) := step_of_event next

/-- Settles O47: registers, stack, keys and pixels are those of the reset state (O49), memory is unwritten, and every other field is
the value R24 gives it or, of the model's own, the one before. -/
theorem resetEvent : Obligations.ResetEvent := by
  unfold Obligations.ResetEvent
  obtain ⟨regs, -, -, -, stack, -, -, keys, pixels, -⟩ := resetState
  exact fun s straps next => ⟨_, step_of_reset next, regs, rfl, rfl, rfl, stack, rfl, rfl, keys, fun _ => rfl, pixels,
    rfl, rfl, rfl, rfl, rfl, rfl, rfl, rfl⟩

/-! ### Boot -/

theorem fetch_of_bytes {u : State} {b0 b1 : Byte} (inside : u.pc.toNat ≤ 0xFFE) (first : u.readByte u.pc.toNat = b0)
    (second : u.readByte (u.pc.toNat + 1) = b1) : fetch u = .ok (BitVec.ofNat 16 (b0.toNat * 256 + b1.toNat)) := by
  rw [← first, ← second]
  exact fetch_of_readByte (fun _ => rfl) inside

/-- Bytes stored from `pc` up are the next ones fetched (20_memory.md R33, R36). -/
theorem fetch_storeBytes_pc {s : State} (b0 b1 : Byte) (bs : List Byte) (inside : s.pc.toNat ≤ 0xFFE) :
    fetch (s.storeBytes s.pc.toNat (b0 :: b1 :: bs)) = .ok (BitVec.ofNat 16 (b0.toNat * 256 + b1.toNat)) := by
  have stored {j : Nat} (hj : j < bs.length + 2) := s.readByte_storeBytes_add s.pc.toNat (bs := b0 :: b1 :: bs) hj
  exact fetch_of_bytes inside (stored (j := 0) (by omega)) (stored (j := 1) (by omega))

/-- Settles O48: the reset keeps the order of events, so the load comes next; it stores the image where `pc` stands. -/
theorem bootFetchesImage : Obligations.BootFetchesImage := by
  unfold Obligations.BootFetchesImage
  intro s straps b0 b1 bs resets loads fits
  have loaded := step_of_load_fits (s := onReset straps s.consume) loads fits
  have fetched := fetch_storeBytes_pc (s := (onReset straps s.consume).consume) b0 b1 bs
    (show (0x0200 : Word).toNat ≤ 0xFFE by decide)
  exact ⟨_, _, step_of_reset resets, loaded, rfl, rfl, fetched, rfl, rfl⟩

/-! ### The end of a program -/

/-- Where a fetch succeeds, `pc` has 12 bits, so a jump can name it (20_memory.md R36, R75). -/
theorem zext16_pc_of_fetch_ok {s : State} {w : Word} (fetched : fetch s = .ok w) : zext16 (s.pc.setWidth 12) = s.pc := by
  have inside : s.pc.toNat ≤ 0xFFE := by
    by_contra out
    rw [fetch_of_gt (Nat.lt_of_not_le out)] at fetched
    cases fetched
  bv_omega

/-- Settles O60: the jump writes the `pc` it was fetched from, which takes the fetch advance back. -/
theorem finishedStays : Obligations.FinishedStays := by
  unfold Obligations.FinishedStays
  rintro s ⟨noFault, fetched⟩ next
  calc step s
    _ = exec (decodeWord (encode (.jp (s.pc.setWidth 12)))) s.consume.advance := step_of_fetch_ok next noFault fetched
    _ = execJp (s.pc.setWidth 12) s.consume.advance := by rw [decodeEncode (.jp _) rfl]; rfl
    _ = .next { s.consume.advance with pc := zext16 (s.pc.setWidth 12) } := rfl
    _ = .next s.consume := by rw [zext16_pc_of_fetch_ok fetched]; rfl

end Sys2Proof.Machine
end
